-- ==== Sys2Proof/Word.lean ====
section
/-! DEFINITION. The word type of the block: one byte of 8 bits, bit 0 the least significant (00_scope.md R7,
30_encoding.md R45). Every datum the block receives, reads or writes is one byte (20_memory.md R33). -/

namespace Sys2Proof

/-- One byte: a received MIDI byte or the content of one store offset. -/
abbrev Byte := BitVec 8

end Sys2Proof
end

