-- ==== Sys2Proof/Config.lean ====
section
/-! DEFINITION. What an implementation fixes (the OPEN rows of 00_scope.md R6) and the free values.
The rows of R6 that have a value stand where they are used: Decode.lean and Machine/Operands.lean. -/

namespace Sys2Proof

/-- The OPEN parameter of the countdown timebase (00_scope.md R6; 92_eei_decisions.md D7): `T5`, the number of
`TICK` steps in 5 ms. The spec asks only `T5 >= 1`, so the structure holds `T5 - 1`, any natural number.
`T15 = 3 * T5`. It is fixed for the machine: no step writes it (notes/assumptions/3.md). -/
structure Timebase where
  t5Pred : Nat
  deriving DecidableEq, Repr

/-- FREE VALUE: what `cd_cnt - 1` is when `cd_cnt = 0`. 40_realtime_dispatch.md R68 (f) says the subtraction is
never applied there, so the spec gives it no value; only states that no run reaches use it
(notes/assumptions/9.md). -/
opaque Config.decrementOfZero : Nat

/-- FREE VALUE: what `div - 1` is when `div = 0`. 40_realtime_dispatch.md R68 (b) says this never happens; only
states that no run reaches use it (notes/assumptions/9.md). -/
opaque Config.presetOfZeroDivisor : BitVec 5

end Sys2Proof
end

