-- ==== Sys2Proof/Syntax.lean ====
section
/-! DEFINITION. The instructions: one constructor per row of spec/opcode_table.json (30_encoding.md R47, R48, R50,
R56), and the context a byte is decoded in (30_encoding.md R53). -/

namespace Sys2Proof

/-- The level of the mode-select input (60_exceptions.md R120): 0 is sync-to-transport, 1 (or a floating pin, by the
pull-up) is free-running. -/
inductive Mode where
  | low    -- 0: Clock bytes count only while the transport is running
  | high   -- 1: every Clock byte counts
  deriving DecidableEq, Repr

/-- The SysexParserState (10_state.md R17), in the spec's order 0 to 6. Each name says which byte the state is waiting
to accept (00_scope.md, glossary). -/
inductive SxState where
  | idle
  | sawUniversalHeader
  | sawDeviceId
  | sawSubId1
  | sawSubId2
  | appliedChange
  | awaitingTerminator
  deriving DecidableEq, Repr

/-- What decoding depends on beside the byte: the parser state at the start of the step (30_encoding.md R53), and the
mode-select level, which is CLOCK's operand (40_realtime_dispatch.md R62). -/
structure Context where
  sx   : SxState
  mode : Mode
  deriving DecidableEq, Repr

/-- The table's formats (30_encoding.md R56): dispatcher path, SysEx path, data byte. -/
inductive Format where
  | D
  | S
  | X
  deriving DecidableEq, Repr

/-- One constructor per row of spec/opcode_table.json. The catch-all rows carry the bits they ignore, so that the byte
an instruction came from is known (notes/assumptions/10.md). -/
inductive Instr where
  /-- SOX, 40_realtime_dispatch.md R61 -/
  | sox
  /-- CLOCK, R62; `m` is the mode-select level sampled in the step -/
  | clock (m : Mode)
  /-- START, R63 -/
  | start
  /-- CONTINUE, R64 -/
  | cont
  /-- STOP, R65 -/
  | stop
  /-- IGN, R66; `b` is the ignored byte -/
  | ign (b : Byte)
  /-- SX_HDR, 41_sysex_config.md R76 -/
  | sxHdr
  /-- SX_DEVID, R77 -/
  | sxDevid
  /-- SX_SUB1, R78 -/
  | sxSub1
  /-- SX_SUB2, R79 -/
  | sxSub2
  /-- SX_ABORT, R80; `b` is the mismatching byte -/
  | sxAbort (b : Byte)
  /-- SX_EOX, R85 -/
  | sxEox
  /-- SX_HOLD, R86; `b` is the byte held out -/
  | sxHold (b : Byte)
  /-- SET_PPQN, R82; `x` is the ignored bit 7, `val` the candidate -/
  | setPpqn (x : BitVec 1) (val : BitVec 5)
  /-- SET_PW.5MS, R83; `x` is the ignored bit 7 -/
  | setPw5ms (x : BitVec 1)
  /-- SET_PW.15MS, R83; `x` is the ignored bit 7 -/
  | setPw15ms (x : BitVec 1)
  /-- DATA_NOP, R84; the three fields of the discarded data byte -/
  | dataNop (x : BitVec 1) (sel : BitVec 2) (val : BitVec 5)
  deriving DecidableEq, Repr

/-- The format column of spec/opcode_table.json. -/
def Instr.format : Instr → Format
  | .sox | .clock _ | .start | .cont | .stop | .ign _ => .D
  | .sxHdr | .sxDevid | .sxSub1 | .sxSub2 | .sxAbort _ | .sxEox | .sxHold _ => .S
  | .setPpqn _ _ | .setPw5ms _ | .setPw15ms _ | .dataNop _ _ _ => .X

/-- The mnemonic column of spec/opcode_table.json. -/
def Instr.mnemonic : Instr → String
  | .sox => "SOX"
  | .clock _ => "CLOCK"
  | .start => "START"
  | .cont => "CONTINUE"
  | .stop => "STOP"
  | .ign _ => "IGN"
  | .sxHdr => "SX_HDR"
  | .sxDevid => "SX_DEVID"
  | .sxSub1 => "SX_SUB1"
  | .sxSub2 => "SX_SUB2"
  | .sxAbort _ => "SX_ABORT"
  | .sxEox => "SX_EOX"
  | .sxHold _ => "SX_HOLD"
  | .setPpqn _ _ => "SET_PPQN"
  | .setPw5ms _ => "SET_PW.5MS"
  | .setPw15ms _ => "SET_PW.15MS"
  | .dataNop _ _ _ => "DATA_NOP"

end Sys2Proof
end

