-- ==== Sys2Proof/WellFormed.lean ====
section
/-! DEFINITION. Which instruction can stand in which context: the columns "context" and "constraint" of
spec/opcode_table.json (30_encoding.md R47, R48, R50). Written apart from Decode.lean, so that the round trip of
decoder and encoder says something about both. -/

namespace Sys2Proof

/-- The constant byte a header state accepts (30_encoding.md R48); none for the other three states. -/
def SxState.headerByte? : SxState → Option Byte
  | .sawUniversalHeader => some 0x7E#8
  | .sawDeviceId => some 0x49#8
  | .sawSubId1 => some 0x0B#8
  | .sawSubId2 => some 0x02#8
  | .idle | .appliedChange | .awaitingTerminator => none

/-- The data byte's PPQN shape with a value in range (30_encoding.md R50). -/
def ppqnShape (sel : BitVec 2) (val : BitVec 5) : Bool :=
  sel.toNat == 0 && decide (1 ≤ val.toNat ∧ val.toNat ≤ 24)

/-- The data byte's pulse-width shape with a nonzero, non-reserved selector (30_encoding.md R50). -/
def pulseWidthShape (sel : BitVec 2) (val : BitVec 5) : Bool :=
  val.toNat == 31 && (sel.toNat == 1 || sel.toNat == 2)

/-- `i.wellFormedIn c`: some byte is decoded as `i` in the context `c`. -/
def Instr.wellFormedIn (c : Context) : Instr → Bool
  | .sox | .start | .cont | .stop => true
  | .clock m => m == c.mode
  | .ign b => !([0xF0#8, 0xF8#8, 0xFA#8, 0xFB#8, 0xFC#8] : List Byte).contains b
  | .sxHdr => c.sx == .sawUniversalHeader
  | .sxDevid => c.sx == .sawDeviceId
  | .sxSub1 => c.sx == .sawSubId1
  | .sxSub2 => c.sx == .sawSubId2
  | .sxAbort b =>
    match c.sx.headerByte? with
    | some e => b != e
    | none => false
  | .sxEox => c.sx == .awaitingTerminator
  | .sxHold b => c.sx == .awaitingTerminator && b != 0xF7#8
  | .setPpqn _ val => c.sx == .appliedChange && ppqnShape 0#2 val
  | .setPw5ms _ | .setPw15ms _ => c.sx == .appliedChange
  | .dataNop _ sel val => c.sx == .appliedChange && !ppqnShape sel val && !pulseWidthShape sel val

end Sys2Proof
end

