-- ==== Sys2Proof/Decode.lean ====
section
/-! DEFINITION. Decoding one byte (30_encoding.md R45 to R50, R53), total on all 256 values in all contexts: no byte is
illegal (30_encoding.md R52), so nothing is rejected, and a byte without a meaning of its own decodes to the named
catch-all row of its path (IGN, SX_ABORT, SX_HOLD, DATA_NOP). Then the encoder, the opcode table as data (R56), and
the host's view of one table word. -/

namespace Sys2Proof

/-! ## The data byte's fields (30_encoding.md R49) -/

/-- Bit 7 of the data byte, ignored by every test. -/
def dataX (c : Byte) : BitVec 1 := c.extractLsb' 7 1

/-- `sel = c[6:5]`. -/
def dataSel (c : Byte) : BitVec 2 := c.extractLsb' 5 2

/-- `val = c[4:0]`. -/
def dataVal (c : Byte) : BitVec 5 := c.extractLsb' 0 5

/-- The three classes of the data byte (30_encoding.md R50), tested as SX_DATA tests them (41_sysex_config.md R81). -/
def decodeData (c : Byte) : Instr :=
  if dataSel c = 0#2 ∧ 1#5 ≤ dataVal c ∧ dataVal c ≤ 24#5 then .setPpqn (dataX c) (dataVal c)
  else if dataVal c = 31#5 ∧ dataSel c = 1#2 then .setPw5ms (dataX c)
  else if dataVal c = 31#5 ∧ dataSel c = 2#2 then .setPw15ms (dataX c)
  else .dataNop (dataX c) (dataSel c) (dataVal c)

/-! ## The two paths -/

/-- The SysEx path (30_encoding.md R48; `sx_offer` of 41_sysex_config.md R75). In `Idle` the byte is not offered. -/
def decodeSysex (sx : SxState) (b : Byte) : Option Instr :=
  match sx with
  | .idle => none
  | .sawUniversalHeader => some (if b = 0x7E#8 then .sxHdr else .sxAbort b)
  | .sawDeviceId => some (if b = 0x49#8 then .sxDevid else .sxAbort b)
  | .sawSubId1 => some (if b = 0x0B#8 then .sxSub1 else .sxAbort b)
  | .sawSubId2 => some (if b = 0x02#8 then .sxSub2 else .sxAbort b)
  | .appliedChange => some (decodeData b)
  | .awaitingTerminator => some (if b = 0xF7#8 then .sxEox else .sxHold b)

/-- The dispatcher path (30_encoding.md R47; `dispatch` of 40_realtime_dispatch.md R60). `m` becomes CLOCK's operand. -/
def decodeDispatch (m : Mode) (b : Byte) : Instr :=
  if b = 0xF0#8 then .sox
  else if b = 0xF8#8 then .clock m
  else if b = 0xFA#8 then .start
  else if b = 0xFB#8 then .cont
  else if b = 0xFC#8 then .stop
  else .ign b

/-- The decoded form of one byte: a pair (30_encoding.md R46). -/
structure Decoded where
  sysex      : Option Instr
  dispatcher : Instr
  deriving DecidableEq, Repr

/-- Both decoders on one byte (30_encoding.md R46). -/
def decode (c : Context) (b : Byte) : Decoded :=
  { sysex := decodeSysex c.sx b, dispatcher := decodeDispatch c.mode b }

/-! ## The encoder -/

/-- The byte of an instruction, from the "encoding" column of spec/opcode_table.json. Every instruction is one byte
(30_encoding.md R45). -/
def encode : Instr → Byte
  | .sox => 0b11110000#8
  | .clock _ => 0b11111000#8
  | .start => 0b11111010#8
  | .cont => 0b11111011#8
  | .stop => 0b11111100#8
  | .ign b => b
  | .sxHdr => 0b01111110#8
  | .sxDevid => 0b01001001#8
  | .sxSub1 => 0b00001011#8
  | .sxSub2 => 0b00000010#8
  | .sxAbort b => b
  | .sxEox => 0b11110111#8
  | .sxHold b => b
  | .setPpqn x val => x ++ 0b00#2 ++ val
  | .setPw5ms x => x ++ 0b0111111#7
  | .setPw15ms x => x ++ 0b1011111#7
  | .dataNop x sel val => x ++ sel ++ val

/-! ## The opcode table as data (30_encoding.md R56) -/

/-- One row of spec/opcode_table.json. An empty context list stands for "*" (any). `rangeTested` marks SET_PPQN, whose
range test `1 <= val <= 24` is in the column "constraint". -/
structure TableRow where
  mnemonic    : String
  format      : Format
  context     : List SxState
  pattern     : Byte
  mask        : Byte
  rangeTested : Bool := false
  deriving DecidableEq, Repr

/-- The 17 rows, in the table's order. -/
def opcodeTable : List TableRow :=
  [ { mnemonic := "SOX", format := .D, context := [], pattern := 0xF0#8, mask := 0xFF#8 },
    { mnemonic := "CLOCK", format := .D, context := [], pattern := 0xF8#8, mask := 0xFF#8 },
    { mnemonic := "START", format := .D, context := [], pattern := 0xFA#8, mask := 0xFF#8 },
    { mnemonic := "CONTINUE", format := .D, context := [], pattern := 0xFB#8, mask := 0xFF#8 },
    { mnemonic := "STOP", format := .D, context := [], pattern := 0xFC#8, mask := 0xFF#8 },
    { mnemonic := "IGN", format := .D, context := [], pattern := 0x00#8, mask := 0x00#8 },
    { mnemonic := "SX_HDR", format := .S, context := [.sawUniversalHeader], pattern := 0x7E#8, mask := 0xFF#8 },
    { mnemonic := "SX_DEVID", format := .S, context := [.sawDeviceId], pattern := 0x49#8, mask := 0xFF#8 },
    { mnemonic := "SX_SUB1", format := .S, context := [.sawSubId1], pattern := 0x0B#8, mask := 0xFF#8 },
    { mnemonic := "SX_SUB2", format := .S, context := [.sawSubId2], pattern := 0x02#8, mask := 0xFF#8 },
    { mnemonic := "SX_ABORT", format := .S, context := [.sawUniversalHeader, .sawDeviceId, .sawSubId1, .sawSubId2],
      pattern := 0x00#8, mask := 0x00#8 },
    { mnemonic := "SX_EOX", format := .S, context := [.awaitingTerminator], pattern := 0xF7#8, mask := 0xFF#8 },
    { mnemonic := "SX_HOLD", format := .S, context := [.awaitingTerminator], pattern := 0x00#8, mask := 0x00#8 },
    { mnemonic := "SET_PPQN", format := .X, context := [.appliedChange], pattern := 0x00#8, mask := 0x60#8, rangeTested := true },
    { mnemonic := "SET_PW.5MS", format := .X, context := [.appliedChange], pattern := 0x3F#8, mask := 0x7F#8 },
    { mnemonic := "SET_PW.15MS", format := .X, context := [.appliedChange], pattern := 0x5F#8, mask := 0x7F#8 },
    { mnemonic := "DATA_NOP", format := .X, context := [.appliedChange], pattern := 0x00#8, mask := 0x00#8 } ]

/-- A row applies in the state `sx` to the byte `b`: the context admits it, `b & mask = match`, and the range test where
the row has one. -/
def rowApplies (sx : SxState) (b : Byte) (r : TableRow) : Bool :=
  (r.context.isEmpty || r.context.contains sx) && (b &&& r.mask) == r.pattern
    && (!r.rangeTested || (1 ≤ b.toNat % 32 && b.toNat % 32 ≤ 24))

/-- Within the rows of the given path the first row that applies wins (30_encoding.md R56). -/
def tableLookup (onPath : Format → Bool) (sx : SxState) (b : Byte) : Option String :=
  (opcodeTable.find? fun r => onPath r.format && rowApplies sx b r).map TableRow.mnemonic

/-! ## The configuration command and the pseudo-instructions (30_encoding.md R51, R55) -/

/-- `CFG d`: the seven bytes of the one recognised command, with data byte `d`. -/
def cfgCommand (d : Byte) : List Byte := [0xF0#8, 0x7E#8, 0x49#8, 0x0B#8, 0x02#8, d, 0xF7#8]

/-- `SETPPQN n` (for 1 to 24). -/
def setPpqnCommand (n : Nat) : List Byte := cfgCommand (BitVec.ofNat 8 n)

/-- `SETPW 5`. -/
def setPw5Command : List Byte := cfgCommand 0x3F#8

/-- `SETPW 15`. -/
def setPw15Command : List Byte := cfgCommand 0x5F#8

/-! ## One word of the table, as the host asks about it -/

/-- The context in which a byte selects an operation of its own: `Idle` for the five dispatcher opcodes (only the
dispatcher path runs there), the one header state or `AwaitingTerminator` that accepts the constant, `AppliedChange`
for an accepted data byte; `Idle` for every other byte. The mode-select pin is left floating, which reads high
(60_exceptions.md R120). notes/assumptions/11.md. -/
def tableContext (b : Byte) : Context :=
  { sx :=
      if b = 0x7E#8 then .sawUniversalHeader
      else if b = 0x49#8 then .sawDeviceId
      else if b = 0x0B#8 then .sawSubId1
      else if b = 0x02#8 then .sawSubId2
      else if b = 0xF7#8 then .awaitingTerminator
      else match decodeData b with
        | .dataNop _ _ _ => .idle
        | _ => .appliedChange
    mode := .high }

/-- The instruction the decoder reads from the one byte of a table word, in the byte's `tableContext`: the SysEx path's
where that path takes the byte, else the dispatcher's. Every row of the table has 8 bits. -/
def decodeTableWord (nbits w : Nat) : Option Instr :=
  if nbits = 8 ∧ w < 256 then
    let b := BitVec.ofNat 8 w
    let d := decode (tableContext b) b
    some (d.sysex.getD d.dispatcher)
  else none

end Sys2Proof
end

