-- ==== Sys2Proof/Machine/State.lean ====
section
/-! DEFINITION. The state of the block (10_state.md R11, R22), the inputs still to come, the reasons a step can stop,
and the state after reset (10_state.md R27, 70_reset_and_hazards.md R133). Plain data throughout. -/

namespace Sys2Proof.Machine

/-- `pw_code`, the pulse-width code: 1 is 5 ms, 2 is 15 ms. The value 3 is never stored (10_state.md R14) and its pulse
width is undefined (93_implementation_defined.md U4), so the register has two values (notes/assumptions/4.md). -/
inductive PwCode where
  | width5ms
  | width15ms
  deriving DecidableEq, Repr

/-- One step the environment asks for (00_scope.md R9): a delivered byte with the mode-select level of the step, a
countdown tick, or a reset. -/
inductive Input where
  | byte (b : Byte) (m : Mode)
  | tick
  | reset
  deriving DecidableEq, Repr

/-- One access on the store port (00_scope.md R10): a read at the offset `nv_addr` with the byte `nv_rdata` that the
store answers (during `RESET` only), or a write (`nv_we` high) of `nv_wdata` at `nv_addr`. -/
inductive NvAccess where
  | read (addr : Nat) (rdata : Byte)
  | write (addr : Nat) (wdata : Byte)
  deriving DecidableEq, Repr

/-- What passes at the ports (00_scope.md R10): the strobe `pg_start`, and the accesses on the store port, in order. The
level output `sync_out` is the register `out` (42_pulse_generator.md R101). -/
structure Ports where
  pgStart : Bool
  nvBus   : List NvAccess
  deriving DecidableEq, Repr

/-- The store `NV` (20_memory.md R30, R31) as (offset, byte) pairs: offsets strictly rising, and no entry equal to the
erased byte `0xFF` that an unlisted offset reads as (`Memory.wf`). -/
abbrev Memory := List Host.Cell

/-- The nine registers of 10_state.md R11, the store of R22, and three fields of the model's own: the OPEN timebase
parameter, the steps still to come, and what passed at the ports in the latest step. -/
structure State where
  /-- pulses per quarter note, R13 -/
  ppqn     : BitVec 5
  /-- pulse-width code, R14 -/
  pwCode   : PwCode
  /-- ClockDivisor, R15 -/
  div      : BitVec 5
  /-- ClockCounter, R16 -/
  clkCnt   : BitVec 5
  /-- TransportState, R18 -/
  running  : Bool
  /-- SysexParserState, R17 -/
  sxState  : SxState
  /-- drive level of the sync line, R19 -/
  out      : Bool
  /-- countdown enable, the stored expiry flag, R20 -/
  cdEn     : Bool
  /-- remaining ticks of the countdown, R21 -/
  cdCnt    : Nat
  /-- the persistent config store, R22 -/
  nv       : Memory
  /-- the OPEN parameter `T5` (00_scope.md R6), written by no step -/
  timebase : Timebase
  /-- the steps the environment will ask for, the next one first -/
  inputs   : List Input
  /-- what passed at the ports in the latest step, or in the latest clock cycle (`portCycle`) -/
  ports    : Ports
  deriving DecidableEq, Repr

/-- Why a step stops with a fault. The block itself raises none (60_exceptions.md R110). -/
inductive Fault where
  /-- A store access at an offset that does not exist (20_memory.md R31: "No offset above 1 exists for the block").
  Raised by `readByte` and `storeByte`. Safe: no rule generates such an offset (R34). -/
  | noSuchStoreOffset (a : Nat)
  deriving DecidableEq, Repr

/-- Why the model has no next state. -/
inductive Refusal where
  /-- An instruction without a meaning in this model, by mnemonic. Raised by no arm of `exec`. Safe. -/
  | notModelled (mnemonic : String)
  /-- `RESET` from a store image outside `NvLegal` (70_reset_and_hazards.md R132: "A model takes `NvLegal` as a launch
  premise and refuses a launch that breaks it"). Raised by `resetStep`. Safe: nothing is claimed of such a launch. -/
  | illegalStoreImage
  deriving DecidableEq, Repr

/-- The machine right after a `RESET` from a fresh (erased) store: 70_reset_and_hazards.md R133, 10_state.md R27. The
model's own fields: nothing delivered yet, no strobe, and the spec's reference timebase `T5 = 5`
(notes/assumptions/1.md, 3.md, 5.md, 8.md). -/
def State.reset : State :=
  { ppqn := 2#5, pwCode := .width5ms, div := 12#5, clkCnt := 0#5, running := false, sxState := .idle,
    out := false, cdEn := false, cdCnt := 0, nv := [(0, 2#8), (1, 1#8)],
    timebase := { t5Pred := 4 }, inputs := [], ports := { pgStart := false, nvBus := [] } }

end Sys2Proof.Machine
end

