-- ==== Sys2Proof/Machine/Flags.lean ====
section
/-! DEFINITION. The one-bit conditions of the block. Its flags are `running`, `out` and `cd_en` (40_realtime_dispatch.md,
opening); there are no arithmetic flags. -/

namespace Sys2Proof.Machine

/-- The gate of CLOCK (40_realtime_dispatch.md R62): the byte is ignored if `m = 0` and `running = 0`, else counted. -/
def clockCounted (m : Mode) (running : Bool) : Bool :=
  match m with
  | .low => running
  | .high => true

/-- The division boundary of CLOCK: `t >= div`, an unsigned compare (40_realtime_dispatch.md R62, R68 (c); D4). -/
def reachesDivisor (t : BitVec 6) (div : BitVec 5) : Bool :=
  decide (div.toNat ≤ t.toNat)

/-- The expiry condition of TICK, tested on the new value of `cd_cnt` (42_pulse_generator.md R99). -/
def countdownExpired (cdCnt : Nat) : Bool :=
  cdCnt == 0

end Sys2Proof.Machine
end

