-- ==== Sys2Proof/Machine/Operands.lean ====
section
/-! DEFINITION. The values an operation computes from its operands and the registers: the constants of 00_scope.md R6,
the divider's arithmetic (40_realtime_dispatch.md R62, R63, R67), the countdown load value (42_pulse_generator.md R102),
and the two store records (20_memory.md R31). -/

namespace Sys2Proof.Machine

/-! ## Constants of 00_scope.md R6 -/

/-- The store byte that means "never written": what an unlisted offset reads as (00_scope.md R6). -/
def nvSentinel : Byte := 0xFF#8

/-- Offset of the key `PPQN` (20_memory.md R31). -/
def nvPpqnOffset : Nat := 0

/-- Offset of the key `PULSE_WIDTH` (20_memory.md R31). -/
def nvPwOffset : Nat := 1

/-- `PPQN_DEFAULT` = 2. -/
def ppqnDefault : Byte := 2#8

/-- `PW_DEFAULT` = 1 (5 ms). -/
def pwDefault : Byte := 1#8

/-- `CLOCKS_PER_QUARTER` = 24. -/
def clocksPerQuarter : Nat := 24

/-! ## The divider -/

/-- `DIV(p) = floor(24 / p)` for `1 <= p <= 24`, and no value elsewhere (40_realtime_dispatch.md R67: "never applied to 0
or to a value above 24"). Its domain is the range test of SET_PPQN (41_sysex_config.md R82). -/
def divisor (p : BitVec 5) : Option (BitVec 5) :=
  if 1 ≤ p.toNat ∧ p.toNat ≤ 24 then some (BitVec.ofNat 5 (clocksPerQuarter / p.toNat)) else none

/-- `t = clk_cnt + 1`, the 6-bit intermediate of CLOCK (40_realtime_dispatch.md R62). -/
def nextCount (clkCnt : BitVec 5) : BitVec 6 :=
  clkCnt.setWidth 6 + 1#6

/-- `div - 1`, the preset of START (40_realtime_dispatch.md R63). `div >= 1` in every reachable state (R68 (b)); with
`div = 0` the spec gives no value, and the result is a free value (notes/assumptions/9.md). -/
def startPreset (div : BitVec 5) : BitVec 5 :=
  if div = 0#5 then Config.presetOfZeroDivisor else div - 1#5

/-! ## The countdown -/

/-- `T(code)` in ticks (42_pulse_generator.md R102): `T5` or `T15 = 3 * T5`. -/
def pulseTicks (tb : Timebase) : PwCode → Nat
  | .width5ms => tb.t5Pred + 1
  | .width15ms => 3 * (tb.t5Pred + 1)

/-- `cd_cnt - 1` of TICK (42_pulse_generator.md R99). `cd_cnt >= 1` whenever it is applied (40_realtime_dispatch.md
R68 (f)); at 0 the spec gives no value, and the result is a free value (notes/assumptions/9.md). -/
def countDown : Nat → Nat
  | 0 => Config.decrementOfZero
  | n + 1 => n

/-! ## The store's records -/

/-- The byte a pulse-width code is stored as: the code itself, zero-extended (41_sysex_config.md R83, D17). -/
def pwByte : PwCode → Byte
  | .width5ms => 1#8
  | .width15ms => 2#8

/-- The value of `ppqn` after `RESET` from a stored byte that is 1 to 24, with its divisor (70_reset_and_hazards.md
R131); none for any other byte (R132). -/
def bootPpqn (p : Byte) : Option (BitVec 5 × BitVec 5) :=
  if p.toNat ≤ 24 then (divisor (p.setWidth 5)).map fun d => (p.setWidth 5, d) else none

/-- The value of `pw_code` after `RESET` from a stored byte that is 1 or 2 (70_reset_and_hazards.md R131); none for any
other byte (R132). -/
def bootWidth (w : Byte) : Option PwCode :=
  if w = 1#8 then some .width5ms else if w = 2#8 then some .width15ms else none

end Sys2Proof.Machine
end

