-- ==== Sys2Proof/Machine/Ops.lean ====
section
/-! DEFINITION. The named operations over the registers and the store: register writes, `MemRead` and `MemWrite`
(20_memory.md R32), the pulse generator (42_pulse_generator.md R95 to R100), the expiry event (60_exceptions.md R112 to
R116), and `RESET` (70_reset_and_hazards.md R131). The block takes no exception and has no return from one
(60_exceptions.md R110, R116); its one asynchronous event is `expiry`. -/

namespace Sys2Proof.Machine

/-- The outcome of one operation of the block. -/
abbrev Result := Host.Outcome State Fault Refusal

/-- Do `f` after `r`, within one step. -/
def andThen (r : Result) (f : State → Result) : Result :=
  match r with
  | .next s => f s
  | .fault e => .fault e
  | .refused e => .refused e

/-! ## Register writes -/

/-- `sx_state <- x`. -/
def State.setSx (x : SxState) (s : State) : State := { s with sxState := x }

/-- `running <- r`. -/
def State.setRunning (r : Bool) (s : State) : State := { s with running := r }

/-- `clk_cnt <- c`. -/
def State.setClkCnt (c : BitVec 5) (s : State) : State := { s with clkCnt := c }

/-- `ppqn <- p` and `div <- d`: they are only written together (10_state.md R15). -/
def State.setPpqn (p d : BitVec 5) (s : State) : State := { s with ppqn := p, div := d }

/-- `pw_code <- code`. -/
def State.setPwCode (code : PwCode) (s : State) : State := { s with pwCode := code }

/-- `cd_cnt <- n`. -/
def State.setCdCnt (n : Nat) (s : State) : State := { s with cdCnt := n }

/-- `out <- 1`, `cd_en <- 1`, `cd_cnt <- n`, with the strobe `pg_start` (42_pulse_generator.md R95). -/
def State.raiseLine (n : Nat) (s : State) : State :=
  { s with out := true, cdEn := true, cdCnt := n, ports := { s.ports with pgStart := true } }

/-- `out <- 0`, `cd_en <- 0` (42_pulse_generator.md R100). -/
def State.lowerLine (s : State) : State := { s with out := false, cdEn := false }

/-- The store becomes `m`, and the write of `v` at `a` is on the store port (00_scope.md R10). -/
def State.setNv (a : Nat) (v : Byte) (m : Memory) (s : State) : State :=
  { s with nv := m, ports := { s.ports with nvBus := s.ports.nvBus ++ [.write a v] } }

/-- The read at `a`, answered with `v`, is on the store port (00_scope.md R10). -/
def State.noteRead (a : Nat) (v : Byte) (s : State) : State :=
  { s with ports := { s.ports with nvBus := s.ports.nvBus ++ [.read a v] } }

/-- A step begins: the inputs still to come are `rest`, and nothing is at the ports yet. -/
def State.enterStep (rest : List Input) (s : State) : State :=
  { s with inputs := rest, ports := { pgStart := false, nvBus := [] } }

/-! ## The store -/

/-- The offset exists (20_memory.md R31). -/
def offsetExists (a : Nat) : Bool := decide (a < 2)

/-- The byte at offset `a`: the listed one, else the erased byte (20_memory.md R31). -/
def Memory.get (a : Nat) : Memory → Byte
  | [] => nvSentinel
  | (b, w) :: rest => if a = b then w else Memory.get a rest

/-- `v` put before `rest`, unless it is the erased byte. -/
def Memory.cons (a : Nat) (v : Byte) (rest : Memory) : Memory :=
  if v = nvSentinel then rest else (a, v) :: rest

/-- The store with byte `v` at offset `a`, in the canonical form. -/
def Memory.put (a : Nat) (v : Byte) : Memory → Memory
  | [] => Memory.cons a v []
  | (b, w) :: rest =>
    if a < b then Memory.cons a v ((b, w) :: rest)
    else if a = b then Memory.cons a v rest
    else (b, w) :: Memory.put a v rest

/-- The canonical form from offset `lo` on: offsets strictly rising and existing, no erased byte listed. -/
def Memory.wfFrom (lo : Nat) : Memory → Bool
  | [] => true
  | (b, w) :: rest => decide (lo ≤ b) && offsetExists b && w != nvSentinel && Memory.wfFrom (b + 1) rest

/-- The canonical form of the store: equal stores are equal data. -/
def Memory.wf (m : Memory) : Bool := Memory.wfFrom 0 m

/-- `MemRead(a, 1)` (20_memory.md R32). -/
def readByte (a : Nat) (s : State) : Except Fault Byte :=
  if offsetExists a then .ok (Memory.get a s.nv) else .error (.noSuchStoreOffset a)

/-- `MemWrite(a, 1, v)` (20_memory.md R32): it always succeeds at an offset that exists (R43), and it is issued whether
or not the byte changes (R36). -/
def storeByte (a : Nat) (v : Byte) (s : State) : Result :=
  if offsetExists a then .next (s.setNv a v (Memory.put a v s.nv)) else .fault (.noSuchStoreOffset a)

/-! ## The pulse generator -/

/-- `fire()` (42_pulse_generator.md R95); nothing while a pulse is in progress (R96). -/
def fire (s : State) : State :=
  if s.cdEn then s else s.raiseLine (pulseTicks s.timebase s.pwCode)

/-- `reconfigure(code)` (42_pulse_generator.md R97): the period register is `pw_code`; a running countdown keeps its
value (R98). -/
def reconfigure (code : PwCode) (s : State) : State := s.setPwCode code

/-- `EXPIRY` (42_pulse_generator.md R100): the block's one asynchronous event. It saves nothing and goes nowhere
(60_exceptions.md R115), and there is nothing to return from (R116). -/
def expiry (s : State) : State := s.lowerLine

/-- `TICK` (42_pulse_generator.md R99). -/
def tick (s : State) : State :=
  if s.cdEn then
    let t := s.setCdCnt (countDown s.cdCnt)
    if countdownExpired t.cdCnt then expiry t else t
  else s

/-! ## The divider -/

/-- A counted Clock byte (40_realtime_dispatch.md R62, the else branch): at the division boundary `fire()` and clear the
counter, else keep the new count. -/
def countClock (s : State) : State :=
  let t := nextCount s.clkCnt
  if reachesDivisor t s.div then (fire s).setClkCnt 0#5 else s.setClkCnt (t.setWidth 5)

/-! ## The configuration setters -/

/-- The end of every SX_DATA step (41_sysex_config.md R81): `sx_state <- AwaitingTerminator`. -/
def endData (s : State) : State := s.setSx .awaitingTerminator

/-- `SET_PPQN(val)` (41_sysex_config.md R82). A candidate outside 1 to 24 is discarded: no
byte decodes to one (notes/assumptions/15.md). -/
def applyPpqn (val : BitVec 5) (s : State) : Result :=
  match divisor val with
  | some d => storeByte nvPpqnOffset (val.setWidth 8) (s.setPpqn val d)
  | none => .next s

/-- `SET_PW(sel)` (41_sysex_config.md R83): `reconfigure` is the write of `pw_code` itself. -/
def applyPulseWidth (code : PwCode) (s : State) : Result :=
  storeByte nvPwOffset (pwByte code) (reconfigure code s)

/-! ## RESET -/

/-- Read one key; a sentinel is replaced by the default, written back and used (70_reset_and_hazards.md R131; D10). -/
def bootKey (a : Nat) (dflt : Byte) (s : State) (k : Byte → State → Result) : Result :=
  match readByte a s with
  | .error e => .fault e
  | .ok v =>
    let t := s.noteRead a v
    if v = nvSentinel then andThen (storeByte a dflt t) (k dflt) else k v t

/-- The registers after `RESET` (10_state.md R27). -/
def State.afterReset (p d : BitVec 5) (code : PwCode) (s : State) : State :=
  { s with ppqn := p, div := d, pwCode := code, clkCnt := 0#5, running := false, sxState := .idle,
           out := false, cdEn := false, cdCnt := 0 }

/-- `RESET` (70_reset_and_hazards.md R131): the key `PPQN` first, then `PULSE_WIDTH`. A store image outside `NvLegal` is
refused (R132). -/
def resetStep (s : State) : Result :=
  bootKey nvPpqnOffset ppqnDefault s fun p s1 =>
    bootKey nvPwOffset pwDefault s1 fun w s2 =>
      match bootPpqn p, bootWidth w with
      | some (q, d), some code => .next (s2.afterReset q d code)
      | _, _ => .refused .illegalStoreImage

end Sys2Proof.Machine
end

