-- ==== Sys2Proof/Machine/DataByte.lean ====
section
/-! DEFINITION. The four data-byte operations (41_sysex_config.md section 3). Each ends with the common part of SX_DATA
(R81): `sx_state <- AwaitingTerminator`. -/

namespace Sys2Proof.Machine

/-- SET_PPQN (41_sysex_config.md R81, R82); bit 7 of the byte is ignored. -/
def execSetPpqn (_x : BitVec 1) (val : BitVec 5) (s : State) : Result := applyPpqn val (endData s)

/-- SET_PW.5MS (41_sysex_config.md R81, R83); bit 7 of the byte is ignored. -/
def execSetPw5ms (_x : BitVec 1) (s : State) : Result := applyPulseWidth .width5ms (endData s)

/-- SET_PW.15MS (41_sysex_config.md R81, R83); bit 7 of the byte is ignored. -/
def execSetPw15ms (_x : BitVec 1) (s : State) : Result := applyPulseWidth .width15ms (endData s)

/-- DATA_NOP (41_sysex_config.md R81, R84): the data byte is discarded. -/
def execDataNop (_x : BitVec 1) (_sel : BitVec 2) (_val : BitVec 5) (s : State) : Result := .next (endData s)

end Sys2Proof.Machine
end

