-- ==== Sys2Proof/Machine/Dispatcher.lean ====
section
/-! DEFINITION. The six dispatcher-path operations (40_realtime_dispatch.md section 2). -/

namespace Sys2Proof.Machine

/-- SOX (40_realtime_dispatch.md R61). -/
def execSox (s : State) : Result := .next (s.setSx .sawUniversalHeader)

/-- CLOCK (40_realtime_dispatch.md R62). -/
def execClock (m : Mode) (s : State) : Result :=
  if clockCounted m s.running then .next (countClock s) else .next s

/-- START (40_realtime_dispatch.md R63). -/
def execStart (s : State) : Result := .next ((s.setRunning true).setClkCnt (startPreset s.div))

/-- CONTINUE (40_realtime_dispatch.md R64). -/
def execContinue (s : State) : Result := .next (s.setRunning true)

/-- STOP (40_realtime_dispatch.md R65). -/
def execStop (s : State) : Result := .next (s.setRunning false)

/-- IGN (40_realtime_dispatch.md R66). -/
def execIgn (_b : Byte) (s : State) : Result := .next s

end Sys2Proof.Machine
end

