-- ==== Sys2Proof/Machine/Sysex.lean ====
section
/-! DEFINITION. The seven SysEx-path operations that frame the command (41_sysex_config.md sections 2 and 4). The state
each stands in is the decoder's matter (41_sysex_config.md R75). -/

namespace Sys2Proof.Machine

/-- SX_HDR (41_sysex_config.md R76). -/
def execSxHdr (s : State) : Result := .next (s.setSx .sawDeviceId)

/-- SX_DEVID (41_sysex_config.md R77). -/
def execSxDevid (s : State) : Result := .next (s.setSx .sawSubId1)

/-- SX_SUB1 (41_sysex_config.md R78). -/
def execSxSub1 (s : State) : Result := .next (s.setSx .sawSubId2)

/-- SX_SUB2 (41_sysex_config.md R79). -/
def execSxSub2 (s : State) : Result := .next (s.setSx .appliedChange)

/-- SX_ABORT (41_sysex_config.md R80). -/
def execSxAbort (_b : Byte) (s : State) : Result := .next (s.setSx .idle)

/-- SX_EOX (41_sysex_config.md R85). -/
def execSxEox (s : State) : Result := .next (s.setSx .idle)

/-- SX_HOLD (41_sysex_config.md R86). -/
def execSxHold (_b : Byte) (s : State) : Result := .next s

end Sys2Proof.Machine
end

