-- ==== Sys2Proof/Machine/Dispatch.lean ====
section
/-! DEFINITION. The meaning of every instruction, one arm per constructor. -/

namespace Sys2Proof.Machine

def exec (i : Instr) (s : State) : Host.Outcome State Fault Refusal :=
  match i with
  -- dispatcher path
  | .sox => Sys2Proof.Machine.execSox s
  | .clock m => Sys2Proof.Machine.execClock m s
  | .start => Sys2Proof.Machine.execStart s
  | .cont => Sys2Proof.Machine.execContinue s
  | .stop => Sys2Proof.Machine.execStop s
  | .ign b => Sys2Proof.Machine.execIgn b s
  -- SysEx path
  | .sxHdr => Sys2Proof.Machine.execSxHdr s
  | .sxDevid => Sys2Proof.Machine.execSxDevid s
  | .sxSub1 => Sys2Proof.Machine.execSxSub1 s
  | .sxSub2 => Sys2Proof.Machine.execSxSub2 s
  | .sxAbort b => Sys2Proof.Machine.execSxAbort b s
  | .sxEox => Sys2Proof.Machine.execSxEox s
  | .sxHold b => Sys2Proof.Machine.execSxHold b s
  -- data byte
  | .setPpqn x val => Sys2Proof.Machine.execSetPpqn x val s
  | .setPw5ms x => Sys2Proof.Machine.execSetPw5ms x s
  | .setPw15ms x => Sys2Proof.Machine.execSetPw15ms x s
  | .dataNop x sel val => Sys2Proof.Machine.execDataNop x sel val s

end Sys2Proof.Machine
end

