-- ==== Sys2Proof/Machine/Deliver.lean ====
section
/-! DEFINITION. One step of the block: the `BYTE` step and its two phases (40_realtime_dispatch.md R60), and the choice
of the step by the next input (00_scope.md R9). And how a byte is placed to be the next one delivered. -/

namespace Sys2Proof.Machine

/-- Phase 1: the SysEx path's operation, if the byte was offered to it. -/
def offer (i : Option Instr) (s : State) : Result :=
  match i with
  | none => .next s
  | some i => exec i s

/-- `BYTE(b, m)` (40_realtime_dispatch.md R60): both decodings are made at the start of the step, the SysEx path is
carried out first, then the dispatcher path, whatever the first did. -/
def byteStep (b : Byte) (m : Mode) (s : State) : Result :=
  let d := decode { sx := s.sxState, mode := m } b
  andThen (offer d.sysex s) (exec d.dispatcher)

/-- The step that an input asks for (00_scope.md R9). -/
def perform (e : Input) (s : State) : Result :=
  match e with
  | .byte b m => byteStep b m s
  | .tick => .next (tick s)
  | .reset => resetStep s

/-- The steps of a list, one after the other, with all that passes at the ports kept. -/
def performAll : List Input → State → Result
  | [], s => .next s
  | e :: es, s => andThen (perform e s) (performAll es)

/-- The step that the next input asks for (00_scope.md R9). Without an input the block waits: all state is retained
(60_exceptions.md R123) and nothing passes at the ports (notes/assumptions/2.md). -/
def takeStep (s : State) : Result :=
  match s.inputs with
  | [] => .next (s.enterStep [])
  | e :: rest => perform e (s.enterStep rest)

/-- The byte `b` is the next one delivered, with the parser in the state and the mode-select pin at the level of the
context `c` (notes/assumptions/11.md). -/
def State.deliverNext (c : Context) (b : Byte) (s : State) : State :=
  { s with sxState := c.sx, inputs := .byte b c.mode :: s.inputs }

end Sys2Proof.Machine
end

