-- ==== Sys2Proof/Machine/Step.lean ====
section
/-! DEFINITION. The step function, and the placing of one table word as the next byte delivered. -/

namespace Sys2Proof.Machine

/-- One step of the block (00_scope.md R9). -/
def step (s : State) : Host.Outcome State Fault Refusal := takeStep s

/-- `s` with the byte of a table word as the next byte delivered, in the context in which `decodeTableWord` reads it.
The block fetches nothing (10_state.md R17): this stands for the delivery of the byte by the deserialiser
(notes/assumptions/11.md). -/
def State.withFetchWord (s : State) (nbits w : Nat) : State :=
  let b := BitVec.ofNat 8 (w % 2 ^ nbits)
  s.deliverNext (tableContext b) b

end Sys2Proof.Machine
end

