-- ==== Sys2Proof/Machine/Ports.lean ====
section
/-! DEFINITION. The port-level view (00_scope.md R10): what one clock cycle performs, and what the ports show in it. The
step semantics are normative (R10; notes/assumptions/12.md). -/

namespace Sys2Proof.Machine

/-! ## One clock cycle -/

/-- The input ports in one clock cycle (00_scope.md R10). The input `nv_rdata` is the store's own answer to a read, and
stands in the read's `NvAccess`. -/
structure PortCycle where
  rst     : Bool
  tick    : Bool
  rxValid : Bool
  rxData  : Byte
  modeSel : Mode
  deriving DecidableEq, Repr

/-- The steps of one cycle, in the order `RESET`, `TICK`, `BYTE` (60_exceptions.md R114). In a cycle with `rst` high this is
the cycle in which the `RESET` step completes (70_reset_and_hazards.md R135; notes/assumptions/14.md). -/
def cycleSteps (c : PortCycle) : List Input :=
  (if c.rst then [.reset] else []) ++ (if c.tick then [.tick] else [])
    ++ (if c.rxValid then [.byte c.rxData c.modeSel] else [])

/-- One clock cycle: the registers change as its steps say, and `ports` holds what passed at the ports in this cycle, in all
of its steps and in no earlier cycle. In a cycle without a step nothing does. The inputs still to come are not used. The cycles
that a `RESET` takes for the store are this one cycle (DESIGN CHOICE, notes/assumptions/12.md). -/
def portCycle (c : PortCycle) (s : State) : Result :=
  performAll (cycleSteps c) (s.enterStep s.inputs)

/-! ## The output ports -/

/-- The port `sync_out`: the register `out` (42_pulse_generator.md R101). It changes on the clock edge that ends the cycle
of a step (00_scope.md R10, row `clk`; 70_reset_and_hazards.md R143). -/
def syncOut (s : State) : Bool := s.out

/-- The port `pg_start` in the latest step or cycle (42_pulse_generator.md R95). -/
def pgStart (s : State) : Bool := s.ports.pgStart

/-- The port `nv_we` in the cycle of a store access. -/
def NvAccess.nvWe : NvAccess → Bool
  | .read _ _ => false
  | .write _ _ => true

/-- The port `nv_addr` in the cycle of a store access: an offset is 0 or 1, one bit. -/
def NvAccess.nvAddr : NvAccess → BitVec 1
  | .read a _ | .write a _ => BitVec.ofNat 1 a

/-- The port `nv_wdata`, where a byte is written. The spec gives it no value elsewhere. -/
def NvAccess.nvWdata? : NvAccess → Option Byte
  | .read _ _ => none
  | .write _ v => some v

/-- The port `nv_rdata`, where a byte is read (during `RESET` only). The block does not look at it elsewhere. -/
def NvAccess.nvRdata? : NvAccess → Option Byte
  | .read _ v => some v
  | .write _ _ => none

/-- The port `nv_we` in the latest step or cycle. -/
def nvWe (s : State) : Bool := s.ports.nvBus.any NvAccess.nvWe

/-- The store accesses of the latest step or cycle, in order. A `RESET` makes up to four, in as many cycles of the store's
own as it needs (70_reset_and_hazards.md R131); every other step makes at most one. -/
def nvPort (s : State) : List NvAccess := s.ports.nvBus

/-- The pair that an access writes, if it is a write. -/
def NvAccess.written? : NvAccess → Option Host.Cell
  | .read _ _ => none
  | .write a v => some (a, v)

/-- The store writes among the accesses (`nv_addr`, `nv_wdata` where `nv_we` is high), in order. -/
def Ports.nvWrites (p : Ports) : List Host.Cell := p.nvBus.filterMap NvAccess.written?

/-- The output ports during one clock cycle (00_scope.md R10). -/
structure PortOutputs where
  syncOut : Bool
  pgStart : Bool
  nv      : List NvAccess
  deriving DecidableEq, Repr

/-- What the output ports show in the cycle `c` from the state `s`, if the cycle is performed: `sync_out` is registered and
still shows the line before the edge (70_reset_and_hazards.md R143), the strobes are those of the cycle itself. -/
def portOutputs (c : PortCycle) (s : State) : Option PortOutputs :=
  match portCycle c s with
  | .next t => some { syncOut := syncOut s, pgStart := pgStart t, nv := nvPort t }
  | .fault _ | .refused _ => none

end Sys2Proof.Machine
end

