-- ==== Sys2Proof/Safety.lean ====
section
/-! DEFINITION. The terms in which statements are made: the invariants of 10_state.md R25, the boot requirement of
70_reset_and_hazards.md R132, what stays unchanged, and runs over a finite schedule (70_reset_and_hazards.md R144). -/

namespace Sys2Proof.Machine

/-- `NvLegal` (70_reset_and_hazards.md R132): the boot requirement on the store image. -/
def NvLegal (s : State) : Prop :=
  ∃ p w, readByte 0 s = .ok p ∧ readByte 1 s = .ok w ∧
    (p = 0xFF#8 ∨ (1 ≤ p.toNat ∧ p.toNat ≤ 24)) ∧ (w = 0xFF#8 ∨ w.toNat = 1 ∨ w.toNat = 2)

/-- The invariants of 10_state.md R25 (I1 to I7; I2 and I8 hold by the types of `pwCode` and `sxState`), and the
canonical form of the store. -/
structure Inv (s : State) : Prop where
  /-- I1 -/
  ppqn_ge : 1 ≤ s.ppqn.toNat
  /-- I1 -/
  ppqn_le : s.ppqn.toNat ≤ 24
  /-- I3 -/
  div_eq : s.div.toNat = 24 / s.ppqn.toNat
  /-- I4 -/
  clkCnt_le : s.clkCnt.toNat ≤ 23
  /-- I5 -/
  out_eq : s.out = s.cdEn
  /-- I6, a countdown in progress -/
  counting : s.cdEn = true → 1 ≤ s.cdCnt ∧ s.cdCnt ≤ 3 * (s.timebase.t5Pred + 1)
  /-- I6, no countdown -/
  resting : s.cdEn = false → s.cdCnt = 0
  /-- I7 -/
  mirror_ppqn : readByte 0 s = .ok (s.ppqn.setWidth 8)
  /-- I7 -/
  mirror_pw : readByte 1 s = .ok (pwByte s.pwCode)
  /-- the store is in its canonical form -/
  store_wf : Memory.wf s.nv = true

/-! ## What stays unchanged -/

/-- RuntimeConfig and the divisor are unchanged (`ppqn`, `pw_code`, `div`). -/
def SameConfig (s t : State) : Prop := t.ppqn = s.ppqn ∧ t.pwCode = s.pwCode ∧ t.div = s.div

/-- The counter and the transport flag are unchanged. -/
def SameDivider (s t : State) : Prop := t.clkCnt = s.clkCnt ∧ t.running = s.running

/-- The line and the countdown are unchanged. -/
def SamePulse (s t : State) : Prop := t.out = s.out ∧ t.cdEn = s.cdEn ∧ t.cdCnt = s.cdCnt

/-- Every byte of the store reads as before. -/
def SameStore (s t : State) : Prop := ∀ a, readByte a t = readByte a s

/-- The environment's side is unchanged: the timebase parameter and the inputs still to come. -/
def SameEnvironment (s t : State) : Prop := t.timebase = s.timebase ∧ t.inputs = s.inputs

/-- The offset an instruction stores to, if it stores (41_sysex_config.md R91: a constant, never computed from a byte):
the constants its meaning uses. -/
def storeOffset? : Instr → Option Nat
  | .setPpqn _ _ => some nvPpqnOffset
  | .setPw5ms _ | .setPw15ms _ => some nvPwOffset
  | .dataNop _ _ _ => none
  | .sox | .clock _ | .start | .cont | .stop | .ign _ => none
  | .sxHdr | .sxDevid | .sxSub1 | .sxSub2 | .sxAbort _ | .sxEox | .sxHold _ => none

/-! ## The parser's net transition -/

/-- The net effect of one `BYTE` step on `sx_state`: the table of 41_sysex_config.md R88. -/
def netSx (sx : SxState) (b : Byte) : SxState :=
  if b = 0xF0#8 then .sawUniversalHeader
  else
    match sx with
    | .idle => .idle
    | .sawUniversalHeader => if b = 0x7E#8 then .sawDeviceId else .idle
    | .sawDeviceId => if b = 0x49#8 then .sawSubId1 else .idle
    | .sawSubId1 => if b = 0x0B#8 then .sawSubId2 else .idle
    | .sawSubId2 => if b = 0x02#8 then .appliedChange else .idle
    | .appliedChange => .awaitingTerminator
    | .awaitingTerminator => if b = 0xF7#8 then .idle else .awaitingTerminator

/-- One row of the SysEx path's table (30_encoding.md R48): in the state `sx` the byte `b` is the operation `i`, and
carrying it out leaves the parser in `sx'`. -/
def SxRow (sx : SxState) (b : Byte) (i : Instr) (sx' : SxState) : Prop :=
  decodeSysex sx b = some i ∧ ∀ s : State, s.sxState = sx → ∃ t, exec i s = .next t ∧ t.sxState = sx'

/-- A byte that the dispatcher path ignores (30_encoding.md R47): none of the five constants. -/
def NotOpcode (b : Byte) : Prop := b ≠ 0xF0#8 ∧ b ≠ 0xF8#8 ∧ b ≠ 0xFA#8 ∧ b ≠ 0xFB#8 ∧ b ≠ 0xFC#8

/-- The strobes at the start of a step: none. -/
def Ports.quiet : Ports := { pgStart := false, nvBus := [] }

/-! ## Runs over a finite schedule -/

/-- `s` with exactly the steps `es` to come. -/
def State.feed (es : List Input) (s : State) : State := { s with inputs := es }

/-- The run that takes exactly the steps `es`, in order. -/
def runOn (es : List Input) (s : State) : Host.Outcome State Fault Refusal :=
  Host.Core.run Sys2Proof.core es.length (s.feed es)

/-- How many `TICK` steps a schedule has. -/
def tickCount (es : List Input) : Nat := es.count .tick

/-- How many Clock bytes of a schedule pass the gate of CLOCK (40_realtime_dispatch.md R62) while `running` stays as it is. -/
def countedClocks (running : Bool) (es : List Input) : Nat :=
  es.countP fun
    | .byte b m => b == 0xF8#8 && clockCounted m running
    | .tick | .reset => false

/-- Quiescence (70_reset_and_hazards.md R144): every byte consumed, and no countdown in flight. -/
def Quiescent (s : State) : Prop := s.inputs = [] ∧ s.cdEn = false

end Sys2Proof.Machine
end

