-- ==== Sys2Proof/Certificates/Slice0/Obligations.lean ====
section
/-! DEFINITION. The statements for the provers. Each docstring names what of the spec it formalises. Where a clause rests
on a decision D<n> of 92_eei_decisions.md (followed: notes/assumptions/16.md), or on an inference the spec marks as derived,
it is said so; a clause that is the model's own choice names its log entry. -/

open Sys2Proof Sys2Proof.Machine

/-! ## Encoding -/

/-- Bytes written out bit by bit from 30_encoding.md sections 2 to 4 decode to the instructions they stand for. -/
def Obligations.SampleBytesDecodeAsTabled : Prop :=
  decodeDispatch .low 0b11110000#8 = .sox ∧
  decodeDispatch .high 0b11111000#8 = .clock .high ∧
  decodeDispatch .low 0b10010000#8 = .ign 0x90#8 ∧
  decodeSysex .sawUniversalHeader 0b01111110#8 = some .sxHdr ∧
  decodeSysex .sawUniversalHeader 0b01001001#8 = some (.sxAbort 0x49#8) ∧
  decodeSysex .sawDeviceId 0b01001001#8 = some .sxDevid ∧
  decodeSysex .awaitingTerminator 0b11110111#8 = some .sxEox ∧
  decodeSysex .appliedChange 0b00000100#8 = some (.setPpqn 0#1 4#5) ∧
  decodeSysex .appliedChange 0b10111111#8 = some (.setPw5ms 1#1) ∧
  decodeSysex .appliedChange 0b01011111#8 = some (.setPw15ms 0#1) ∧
  decodeSysex .appliedChange 0b01000011#8 = some (.dataNop 0#1 2#2 3#5)

/-- 30_encoding.md R47: the dispatcher path compares all eight bits with five constants, and everything else is one class.
-/
def Obligations.DispatcherComparesFiveConstants : Prop :=
  ∀ (m : Mode) (b : Byte),
    (b = 0xF0#8 → decodeDispatch m b = .sox) ∧
    (b = 0xF8#8 → decodeDispatch m b = .clock m) ∧
    (b = 0xFA#8 → decodeDispatch m b = .start) ∧
    (b = 0xFB#8 → decodeDispatch m b = .cont) ∧
    (b = 0xFC#8 → decodeDispatch m b = .stop) ∧
    (NotOpcode b → decodeDispatch m b = .ign b)

/-- 30_encoding.md R48: the table of the SysEx path, row by row, with the parser state after each. `Idle` is left by the
dispatcher path's SOX and by no other byte: every other byte's dispatcher operation keeps `Idle`. -/
def Obligations.SysexPathFollowsItsTable : Prop :=
  (∀ b, decodeSysex .idle b = none) ∧
  SxRow .sawUniversalHeader 0x7E#8 .sxHdr .sawDeviceId ∧
  (∀ b, b ≠ 0x7E#8 → SxRow .sawUniversalHeader b (.sxAbort b) .idle) ∧
  SxRow .sawDeviceId 0x49#8 .sxDevid .sawSubId1 ∧
  (∀ b, b ≠ 0x49#8 → SxRow .sawDeviceId b (.sxAbort b) .idle) ∧
  SxRow .sawSubId1 0x0B#8 .sxSub1 .sawSubId2 ∧
  (∀ b, b ≠ 0x0B#8 → SxRow .sawSubId1 b (.sxAbort b) .idle) ∧
  SxRow .sawSubId2 0x02#8 .sxSub2 .appliedChange ∧
  (∀ b, b ≠ 0x02#8 → SxRow .sawSubId2 b (.sxAbort b) .idle) ∧
  (∀ b, ∃ i, i.format = .X ∧ SxRow .appliedChange b i .awaitingTerminator) ∧
  SxRow .awaitingTerminator 0xF7#8 .sxEox .idle ∧
  (∀ b, b ≠ 0xF7#8 → SxRow .awaitingTerminator b (.sxHold b) .awaitingTerminator) ∧
  (∀ m, decodeDispatch m 0xF0#8 = .sox) ∧
  (∀ s, s.sxState = .idle → ∃ t, exec .sox s = .next t ∧ t.sxState = .sawUniversalHeader) ∧
  (∀ m b s, b ≠ 0xF0#8 → s.sxState = .idle → ∃ t, exec (decodeDispatch m b) s = .next t ∧ t.sxState = .idle)

/-- 30_encoding.md R49 and R50 (the classes are derived there): the data byte's class, by arithmetic on the byte's value;
bit 7 takes no part in the class. -/
def Obligations.DataByteClasses : Prop :=
  ∀ c : Byte,
    let sel := c.toNat / 32 % 4
    let val := c.toNat % 32
    let x := BitVec.ofNat 1 (c.toNat / 128)
    (sel = 0 ∧ 1 ≤ val ∧ val ≤ 24 → decodeData c = .setPpqn x (BitVec.ofNat 5 val)) ∧
    (val = 31 ∧ sel = 1 → decodeData c = .setPw5ms x) ∧
    (val = 31 ∧ sel = 2 → decodeData c = .setPw15ms x) ∧
    (¬(sel = 0 ∧ 1 ≤ val ∧ val ≤ 24) ∧ ¬(val = 31 ∧ (sel = 1 ∨ sel = 2)) →
      decodeData c = .dataNop x (BitVec.ofNat 2 sel) (BitVec.ofNat 5 val))

/-- Decode and encode agree, dispatcher path (30_encoding.md section 2): in every context, every well-formed dispatcher
instruction is read back from its own byte. (IGN's operand, the ignored byte, is the model's own:
notes/assumptions/10.md.) -/
def Obligations.DispatcherDecodeOfEncode : Prop :=
  ∀ (c : Context) (i : Instr), i.format = .D → i.wellFormedIn c = true → (decode c (encode i)).dispatcher = i

/-- Decode and encode agree, SysEx path and data byte (30_encoding.md sections 3 and 4). The operands that hold ignored
bits are the model's own (notes/assumptions/10.md). -/
def Obligations.SysexDecodeOfEncode : Prop :=
  ∀ (c : Context) (i : Instr), i.format ≠ .D → i.wellFormedIn c = true → (decode c (encode i)).sysex = some i

/-- The other direction: in every context every byte is decoded to well-formed instructions whose byte it is, so no bit of
a received byte is dropped (30_encoding.md R46, R52: no byte is illegal). That the catch-all rows carry those bits is the
model's choice (notes/assumptions/10.md). -/
def Obligations.EveryByteDecodesWellFormed : Prop :=
  ∀ (c : Context) (b : Byte),
    ((decode c b).dispatcher.format = .D ∧ (decode c b).dispatcher.wellFormedIn c = true ∧
      encode (decode c b).dispatcher = b) ∧
    ((decode c b).sysex = none ↔ c.sx = .idle) ∧
    (∀ i, (decode c b).sysex = some i → i.format ≠ .D ∧ i.wellFormedIn c = true ∧ encode i = b)

/-- 30_encoding.md R56 (derived there): the decoder gives, in every context and for every byte, the first row of the
opcode table that applies on each path. -/
def Obligations.DecoderAgreesWithOpcodeTable : Prop :=
  ∀ (c : Context) (b : Byte),
    tableLookup (· == .D) c.sx b = some (decode c b).dispatcher.mnemonic ∧
    tableLookup (· != .D) c.sx b = (decode c b).sysex.map Instr.mnemonic

/-- 41_sysex_config.md section 3, on SET_PPQN and SET_PW values (derived there): a data byte that changes the
configuration is no dispatcher opcode. -/
def Obligations.AcceptedDataIsNoDispatcherOpcode : Prop :=
  ∀ (c : Byte) (m : Mode), (∀ x sel val, decodeData c ≠ .dataNop x sel val) → decodeDispatch m c = .ign c

/-! ## The step -/

/-- A step runs the decoded instructions (40_realtime_dispatch.md section 1). The next input is a byte (that inputs stand
in State is the model's choice, notes/assumptions/1.md): the parser's operation, where the byte is offered to it, runs on
the state with the input taken and the strobes low, and then the dispatcher's operation runs on what that left. -/
def Obligations.StepRunsDecodedByte : Prop :=
  ∀ (s : State) (b : Byte) (m : Mode) (rest : List Input), s.inputs = .byte b m :: rest →
    (s.sxState = .idle →
      step s = exec (decodeDispatch m b) { s with inputs := rest, ports := Ports.quiet }) ∧
    (∀ i u, decodeSysex s.sxState b = some i → i.wellFormedIn { sx := s.sxState, mode := m } = true →
      exec i { s with inputs := rest, ports := Ports.quiet } = .next u →
      step s = exec (decodeDispatch m b) u)

/-- 00_scope.md section 5: the next input selects the step (that inputs stand in State is the model's choice,
notes/assumptions/1.md). That a step without an input retains all state is the model's choice (notes/assumptions/2.md). -/
def Obligations.NextInputSelectsStep : Prop :=
  ∀ s : State,
    (s.inputs = [] → step s = .next { s with ports := Ports.quiet }) ∧
    (∀ rest, s.inputs = .tick :: rest →
      step s = .next (tick { s with inputs := rest, ports := Ports.quiet })) ∧
    (∀ rest, s.inputs = .reset :: rest →
      step s = resetStep { s with inputs := rest, ports := Ports.quiet })

/-- 60_exceptions.md section 1: no byte and no state makes the block trap or halt. Every instruction completes in every
state, and so does every step but a reset, the waiting step of notes/assumptions/2.md among them (whose launch premise is
IllegalStoreImageRefused's). -/
def Obligations.NoByteOrTickStops : Prop :=
  (∀ (i : Instr) (s : State), ∃ t, exec i s = .next t) ∧
  (∀ s : State, (∀ rest, s.inputs ≠ .reset :: rest) → ∃ t, step s = .next t)

/-- The host's placing of a table word (the model's choice, notes/assumptions/11.md): the next step runs the instruction
that `decodeTableWord` reads, in that byte's context. -/
def Obligations.PlacedWordRunsFirst : Prop :=
  ∀ (s : State) (w : Nat), w < 256 → ∃ i, decodeTableWord 8 w = some i ∧
    step (s.withFetchWord 8 w) =
      exec i { s with sxState := (tableContext (BitVec.ofNat 8 w)).sx, ports := Ports.quiet }

/-! ## Dispatcher operations -/

/-- 40_realtime_dispatch.md R61: SOX writes `SawUniversalHeader` and nothing else, and in a `BYTE` step it does so from
every parser state, whatever phase 1 did. -/
def Obligations.SoxStartsSequence : Prop :=
  ∀ s : State,
    exec .sox s = .next { s with sxState := .sawUniversalHeader } ∧
    ∀ m rest, s.inputs = .byte 0xF0#8 m :: rest →
      step s = .next { s with sxState := .sawUniversalHeader, inputs := rest, ports := Ports.quiet }

/-- 40_realtime_dispatch.md section 2, CLOCK, with the compare of decision D4, the one-shot of D5 and the load value of
D7: ignored while stopped in sync-to-transport mode; else counted; at the division boundary a pulse starts, or is lost if
one is in progress, and the counter clears. -/
def Obligations.ClockCountsAndFires : Prop :=
  ∀ (m : Mode) (s : State),
    (m = .low ∧ s.running = false → exec (.clock m) s = .next s) ∧
    (m = .high ∨ s.running = true →
      (s.clkCnt.toNat + 1 < s.div.toNat → exec (.clock m) s = .next { s with clkCnt := s.clkCnt + 1#5 }) ∧
      (s.div.toNat ≤ s.clkCnt.toNat + 1 → s.cdEn = true → exec (.clock m) s = .next { s with clkCnt := 0#5 }) ∧
      (s.div.toNat ≤ s.clkCnt.toNat + 1 → s.cdEn = false →
        exec (.clock m) s = .next
          { s with clkCnt := 0#5, out := true, cdEn := true,
                   cdCnt := (match s.pwCode with
                     | .width5ms => s.timebase.t5Pred + 1
                     | .width15ms => 3 * (s.timebase.t5Pred + 1)),
                   ports := { s.ports with pgStart := true } }))

/-- 40_realtime_dispatch.md R63: START sets `running`, presets the counter to `div - 1` and does nothing else; so the very
next Clock byte, in either mode, fires and clears the counter. (`div >= 1` in every reachable state:
EveryStepKeepsInvariants.) -/
def Obligations.StartPresetsCounter : Prop :=
  ∀ s : State, 1 ≤ s.div.toNat → ∃ t,
    exec .start s = .next t ∧ t = { s with running := true, clkCnt := s.div - 1#5 } ∧
    t.clkCnt.toNat = s.div.toNat - 1 ∧
    ∀ m, exec (.clock m) t = .next { fire t with clkCnt := 0#5 }

/-- 40_realtime_dispatch.md R64: CONTINUE sets `running` and keeps the counter and everything else. -/
def Obligations.ContinueKeepsCounter : Prop :=
  ∀ s : State, exec .cont s = .next { s with running := true }

/-- 40_realtime_dispatch.md R65: STOP clears `running` and keeps the counter, a pulse in progress and everything else; in
free-running mode a Clock acts as it would have without it. -/
def Obligations.StopKeepsCounterAndPulse : Prop :=
  ∀ s : State,
    exec .stop s = .next { s with running := false } ∧
    ∀ u, exec (.clock .high) s = .next u →
      exec (.clock .high) { s with running := false } = .next { u with running := false }

/-- 40_realtime_dispatch.md R66: every byte but the five constants is ignored on the dispatcher path, and outside a SysEx
sequence such a byte changes no register and no store byte. -/
def Obligations.OtherBytesAreIgnored : Prop :=
  (∀ (b : Byte) (s : State), exec (.ign b) s = .next s) ∧
  (∀ (m : Mode) (b : Byte), NotOpcode b → decodeDispatch m b = .ign b) ∧
  (∀ (s : State) (b : Byte) (m : Mode) (rest : List Input), s.sxState = .idle → NotOpcode b →
    s.inputs = .byte b m :: rest → step s = .next { s with inputs := rest, ports := Ports.quiet })

/-- The frame of the dispatcher operations (40_realtime_dispatch.md section 2, with 10_state.md section 9): the
configuration, every byte of the store and the environment's side are unchanged; only SOX writes the parser state; only
CLOCK and START write the counter; only START, CONTINUE and STOP write `running`; only CLOCK touches the pulse. -/
def Obligations.DispatcherOpsFrame : Prop :=
  ∀ (i : Instr) (s t : State), i.format = .D → exec i s = .next t →
    SameConfig s t ∧ SameStore s t ∧ SameEnvironment s t ∧ t.ports.nvBus = s.ports.nvBus ∧
    (i ≠ .sox → t.sxState = s.sxState) ∧
    ((∀ m, i ≠ .clock m) → i ≠ .start → t.clkCnt = s.clkCnt) ∧
    (i ≠ .start → i ≠ .cont → i ≠ .stop → t.running = s.running) ∧
    ((∀ m, i ≠ .clock m) → SamePulse s t ∧ t.ports = s.ports)

/-! ## The SysEx parser -/

/-- 41_sysex_config.md R76, R78, R79: the three header bytes beside the device id advance the parser and change nothing
else. -/
def Obligations.HeaderBytesAdvanceParser : Prop :=
  decodeSysex .sawUniversalHeader 0x7E#8 = some .sxHdr ∧
  decodeSysex .sawSubId1 0x0B#8 = some .sxSub1 ∧
  decodeSysex .sawSubId2 0x02#8 = some .sxSub2 ∧
  ∀ s : State,
    exec .sxHdr s = .next { s with sxState := .sawDeviceId } ∧
    exec .sxSub1 s = .next { s with sxState := .sawSubId2 } ∧
    exec .sxSub2 s = .next { s with sxState := .appliedChange }

/-- 41_sysex_config.md section 2, SX_DEVID, with decision D18: `0x49` and no other id is accepted, and it changes the
parser state alone. -/
def Obligations.OnlyTheDeviceIdAdvances : Prop :=
  (∀ s : State, exec .sxDevid s = .next { s with sxState := .sawSubId1 }) ∧
  (∀ b : Byte, decodeSysex .sawDeviceId b = some .sxDevid ↔ b = 0x49#8) ∧
  (∀ b : Byte, b ≠ 0x49#8 → decodeSysex .sawDeviceId b = some (.sxAbort b))

/-- 41_sysex_config.md R80: a mismatch in a header state returns the parser to `Idle` and applies nothing; the byte is not
offered again, and the dispatcher path acts on it from `Idle`. -/
def Obligations.HeaderMismatchAborts : Prop :=
  (∀ (b : Byte) (s : State), exec (.sxAbort b) s = .next { s with sxState := .idle }) ∧
  (∀ (s : State) (e b : Byte) (m : Mode) (rest : List Input),
    s.sxState.headerByte? = some e → b ≠ e → s.inputs = .byte b m :: rest →
    decodeSysex s.sxState b = some (.sxAbort b) ∧
    step s = exec (decodeDispatch m b) { s with sxState := .idle, inputs := rest, ports := Ports.quiet })

/-- 41_sysex_config.md R85: `0xF7` in `AwaitingTerminator` returns the parser to `Idle` and applies nothing; in the other
states it is no terminator, and on the dispatcher path it is always ignored. -/
def Obligations.TerminatorReturnsToIdle : Prop :=
  (∀ s : State, exec .sxEox s = .next { s with sxState := .idle }) ∧
  decodeSysex .awaitingTerminator 0xF7#8 = some .sxEox ∧
  (∀ sx e, SxState.headerByte? sx = some e → decodeSysex sx 0xF7#8 = some (.sxAbort 0xF7#8)) ∧
  decodeSysex .appliedChange 0xF7#8 = some (.dataNop 1#1 3#2 23#5) ∧
  (∀ m, decodeDispatch m 0xF7#8 = .ign 0xF7#8)

/-- 41_sysex_config.md R86: in `AwaitingTerminator` every byte but `0xF7` is held out, with no change at all on the SysEx
path, while the dispatcher path works as always (SOX among it). -/
def Obligations.OtherBytesAreHeldOut : Prop :=
  (∀ (b : Byte) (s : State), exec (.sxHold b) s = .next s) ∧
  (∀ b : Byte, b ≠ 0xF7#8 → decodeSysex .awaitingTerminator b = some (.sxHold b)) ∧
  (∀ (s : State) (b : Byte) (m : Mode) (rest : List Input),
    s.sxState = .awaitingTerminator → b ≠ 0xF7#8 → s.inputs = .byte b m :: rest →
    step s = exec (decodeDispatch m b) { s with inputs := rest, ports := Ports.quiet })

/-- 41_sysex_config.md section 4 with 70_reset_and_hazards.md section 3 (parser lock-out): over any schedule of ticks and
bytes without `0xF7` and `0xF0` the parser stays in `AwaitingTerminator`, and neither the configuration nor the store
changes. -/
def Obligations.ParserLockedOutUntilTerminatorOrSox : Prop :=
  ∀ (es : List Input) (s : State), s.sxState = .awaitingTerminator →
    (∀ e ∈ es, e = .tick ∨ ∃ b m, e = .byte b m ∧ b ≠ 0xF7#8 ∧ b ≠ 0xF0#8) →
    ∃ t, runOn es s = .next t ∧ t.sxState = .awaitingTerminator ∧ SameConfig s t ∧ SameStore s t

/-- 41_sysex_config.md R87: in `Idle` no byte is offered to the SysEx path, and only SOX leaves `Idle`. -/
def Obligations.IdleIsLeftBySoxOnly : Prop :=
  ∀ (s : State) (b : Byte) (m : Mode) (rest : List Input), s.sxState = .idle → s.inputs = .byte b m :: rest →
    step s = exec (decodeDispatch m b) { s with inputs := rest, ports := Ports.quiet } ∧
    (b ≠ 0xF0#8 → ∃ t, step s = .next t ∧ t.sxState = .idle)

/-- 41_sysex_config.md section 5 (derived there): the net effect of a `BYTE` step on the parser state is the table
`netSx`, a function of state and byte only. -/
def Obligations.ParserFollowsNetTable : Prop :=
  ∀ (s : State) (b : Byte) (m : Mode) (rest : List Input), s.inputs = .byte b m :: rest →
    ∃ t, step s = .next t ∧ t.sxState = netSx s.sxState b

/-- 40_realtime_dispatch.md section 4 (derived there): a real-time byte is handled by both paths. On the SysEx path it
only moves the parser; on the dispatcher path it has its full effect. -/
def Obligations.RealTimeBytesActOnBothPaths : Prop :=
  ∀ (s : State) (b : Byte) (m : Mode) (rest : List Input),
    b = 0xF8#8 ∨ b = 0xFA#8 ∨ b = 0xFB#8 ∨ b = 0xFC#8 → s.inputs = .byte b m :: rest →
    step s = exec (decodeDispatch m b)
      { s with sxState := netSx s.sxState b, inputs := rest, ports := Ports.quiet }

/-- The frame of the SysEx-path operations (41_sysex_config.md sections 2 and 4): they change nothing but the parser
state, and every byte of the store reads as before. -/
def Obligations.SysexOpsFrame : Prop :=
  ∀ (i : Instr) (s t : State), i.format = .S → exec i s = .next t →
    SameConfig s t ∧ SameDivider s t ∧ SamePulse s t ∧ SameStore s t ∧ SameEnvironment s t ∧ t.ports = s.ports

/-! ## The data byte -/

/-- 41_sysex_config.md section 3, SET_PPQN, with the unconditional store write of decision D13: the value, its divisor and
the store byte change, and nothing else but the parser state. The last clause, that an operand outside 1 to 24 is
discarded, is the model's choice (DEDUCED, notes/assumptions/15.md): no byte decodes to such a SET_PPQN. -/
def Obligations.SetPpqnApplies : Prop :=
  ∀ (x : BitVec 1) (val : BitVec 5) (s : State), Memory.wf s.nv = true →
    (1 ≤ val.toNat ∧ val.toNat ≤ 24 → ∃ t, exec (.setPpqn x val) s = .next t ∧
      t.ppqn = val ∧ t.div.toNat = 24 / val.toNat ∧ t.pwCode = s.pwCode ∧ t.sxState = .awaitingTerminator ∧
      readByte 0 t = .ok (val.setWidth 8) ∧ (∀ a, a ≠ 0 → readByte a t = readByte a s) ∧
      SameDivider s t ∧ SamePulse s t ∧ SameEnvironment s t ∧
      t.ports = { s.ports with nvBus := s.ports.nvBus ++ [.write 0 (val.setWidth 8)] }) ∧
    (¬(1 ≤ val.toNat ∧ val.toNat ≤ 24) →
      exec (.setPpqn x val) s = .next { s with sxState := .awaitingTerminator })

/-- 41_sysex_config.md section 3, SET_PW, with the code of decision D17 and the unconditional store write of D13; and
42_pulse_generator.md section 1: a pulse in progress keeps its length. Both rows of the table. -/
def Obligations.SetPulseWidthApplies : Prop :=
  ∀ (x : BitVec 1) (s : State), Memory.wf s.nv = true →
    (∃ t, exec (.setPw5ms x) s = .next t ∧ t.pwCode = .width5ms ∧ readByte 1 t = .ok 1#8 ∧
      t.ppqn = s.ppqn ∧ t.div = s.div ∧ t.sxState = .awaitingTerminator ∧
      (∀ a, a ≠ 1 → readByte a t = readByte a s) ∧ SameDivider s t ∧ SamePulse s t ∧ SameEnvironment s t ∧
      t.ports = { s.ports with nvBus := s.ports.nvBus ++ [.write 1 1#8] }) ∧
    (∃ t, exec (.setPw15ms x) s = .next t ∧ t.pwCode = .width15ms ∧ readByte 1 t = .ok 2#8 ∧
      t.ppqn = s.ppqn ∧ t.div = s.div ∧ t.sxState = .awaitingTerminator ∧
      (∀ a, a ≠ 1 → readByte a t = readByte a s) ∧ SameDivider s t ∧ SamePulse s t ∧ SameEnvironment s t ∧
      t.ports = { s.ports with nvBus := s.ports.nvBus ++ [.write 1 2#8] })

/-- 41_sysex_config.md section 3, DATA_NOP: the data byte is discarded, no store write is issued, and the parser goes on
to `AwaitingTerminator`. -/
def Obligations.DataNopDiscards : Prop :=
  ∀ (x : BitVec 1) (sel : BitVec 2) (val : BitVec 5) (s : State),
    exec (.dataNop x sel val) s = .next { s with sxState := .awaitingTerminator }

/-- 41_sysex_config.md section 3: phase 1 of a step in `AppliedChange`, for every byte, by the byte's `sel` and `val`,
with the effects of the two setters: the unconditional store write of decision D13 and, for the pulse width, the selector
as the code, decision D17 (both notes/assumptions/16.md). At most one setter runs and at most one store write is issued;
the parser goes to `AwaitingTerminator` whatever the byte, `0xF7` included. -/
def Obligations.DataByteStep : Prop :=
  ∀ (s : State) (c : Byte), s.sxState = .appliedChange → Memory.wf s.nv = true →
    let sel := c.toNat / 32 % 4
    let val := c.toNat % 32
    ∃ t, offer (decodeSysex s.sxState c) s = .next t ∧ t.sxState = .awaitingTerminator ∧
      (sel = 0 ∧ 1 ≤ val ∧ val ≤ 24 →
        t.ppqn.toNat = val ∧ t.div.toNat = 24 / val ∧ t.pwCode = s.pwCode ∧
        readByte 0 t = .ok (BitVec.ofNat 8 val) ∧ (∀ a, a ≠ 0 → readByte a t = readByte a s) ∧
        t.ports.nvBus = s.ports.nvBus ++ [.write 0 (BitVec.ofNat 8 val)]) ∧
      (val = 31 ∧ (sel = 1 ∨ sel = 2) →
        (t.pwCode = .width5ms ↔ sel = 1) ∧ (t.pwCode = .width15ms ↔ sel = 2) ∧ t.ppqn = s.ppqn ∧ t.div = s.div ∧
        readByte 1 t = .ok (BitVec.ofNat 8 sel) ∧ (∀ a, a ≠ 1 → readByte a t = readByte a s) ∧
        t.ports.nvBus = s.ports.nvBus ++ [.write 1 (BitVec.ofNat 8 sel)]) ∧
      (¬(sel = 0 ∧ 1 ≤ val ∧ val ≤ 24) → ¬(val = 31 ∧ (sel = 1 ∨ sel = 2)) →
        t = { s with sxState := .awaitingTerminator })

/-- The frame of the data-byte operations (41_sysex_config.md section 3): counter, transport flag and pulse are unchanged,
and every byte of the store reads as before but the one at the instruction's own constant offset. -/
def Obligations.DataOpsFrame : Prop :=
  ∀ (i : Instr) (s t : State), i.format = .X → exec i s = .next t →
    SameDivider s t ∧ SamePulse s t ∧ SameEnvironment s t ∧ t.sxState = .awaitingTerminator ∧
    t.ports.pgStart = s.ports.pgStart ∧
    (∀ a, storeOffset? i ≠ some a → readByte a t = readByte a s) ∧
    (storeOffset? i ≠ some nvPpqnOffset → t.ppqn = s.ppqn ∧ t.div = s.div) ∧
    (storeOffset? i ≠ some nvPwOffset → t.pwCode = s.pwCode)

/-- 41_sysex_config.md sections 3 and 5 with 30_encoding.md section 5: from every parser state the first six bytes of the
command `F0 7E 49 0B 02 <n> F7` set PPQN, divisor and store byte, before the terminator; the terminator then changes the
parser state alone. -/
def Obligations.PpqnCommandAppliesAtDataByte : Prop :=
  ∀ (s : State) (n : Nat) (m0 m1 m2 m3 m4 m5 m6 : Mode), Memory.wf s.nv = true → 1 ≤ n → n ≤ 24 →
    ∃ t, runOn [.byte 0xF0#8 m0, .byte 0x7E#8 m1, .byte 0x49#8 m2, .byte 0x0B#8 m3, .byte 0x02#8 m4,
        .byte (BitVec.ofNat 8 n) m5] s = .next t ∧
      t.ppqn.toNat = n ∧ t.div.toNat = 24 / n ∧ readByte 0 t = .ok (BitVec.ofNat 8 n) ∧
      t.sxState = .awaitingTerminator ∧ t.pwCode = s.pwCode ∧ (∀ a, a ≠ 0 → readByte a t = readByte a s) ∧
      SameDivider s t ∧ SamePulse s t ∧
      runOn [.byte 0xF7#8 m6] t = .next { t with sxState := .idle, inputs := [], ports := Ports.quiet }

/-- The same for the pulse width: the command with an accepted pulse-width data byte, from every parser state and during a
pulse (41_sysex_config.md section 5, 42_pulse_generator.md section 1). The data byte's effect is that of
41_sysex_config.md section 3, with decision D17 (the selector is the code that is set and stored;
notes/assumptions/16.md). -/
def Obligations.PulseWidthCommandAppliesAtDataByte : Prop :=
  ∀ (s : State) (c : Byte) (k : PwCode) (m0 m1 m2 m3 m4 m5 : Mode), Memory.wf s.nv = true →
    (k = .width5ms ∧ (c = 0x3F#8 ∨ c = 0xBF#8)) ∨ (k = .width15ms ∧ (c = 0x5F#8 ∨ c = 0xDF#8)) →
    ∃ t, runOn [.byte 0xF0#8 m0, .byte 0x7E#8 m1, .byte 0x49#8 m2, .byte 0x0B#8 m3, .byte 0x02#8 m4, .byte c m5] s = .next t ∧
      t.pwCode = k ∧ readByte 1 t = .ok (pwByte k) ∧ t.sxState = .awaitingTerminator ∧
      t.ppqn = s.ppqn ∧ t.div = s.div ∧ (∀ a, a ≠ 1 → readByte a t = readByte a s) ∧
      SameDivider s t ∧ SamePulse s t

/-- 41_sysex_config.md section 5 (derived there): a byte received in any state but `AppliedChange` changes neither the
configuration nor the store, and makes no store access. -/
def Obligations.NoPartialApplication : Prop :=
  ∀ (s : State) (b : Byte) (m : Mode) (rest : List Input), s.sxState ≠ .appliedChange →
    s.inputs = .byte b m :: rest →
    ∃ t, step s = .next t ∧ SameConfig s t ∧ SameStore s t ∧ t.ports.nvBus = []

/-- 20_memory.md section 3 (derived there): a `BYTE` step makes at most one store access, which is a write, and a `TICK`
step none; after `RESET` the store is not read. -/
def Obligations.AtMostOneStoreWritePerByte : Prop :=
  ∀ s t : State, step s = .next t →
    (∀ b m rest, s.inputs = .byte b m :: rest → t.ports.nvBus = [] ∨ ∃ a v, t.ports.nvBus = [.write a v]) ∧
    (∀ rest, s.inputs = .tick :: rest → t.ports.nvBus = [])

/-! ## The divider over a run -/

/-- 40_realtime_dispatch.md section 3 (the table is derived there): `DIV(p) = floor(24 / p)` on 1 to 24, and no value
elsewhere. -/
def Obligations.DivisorIsFloor : Prop :=
  ∀ p : BitVec 5,
    (1 ≤ p.toNat ∧ p.toNat ≤ 24 → ∃ d, divisor p = some d ∧ d.toNat = 24 / p.toNat) ∧
    (¬(1 ≤ p.toNat ∧ p.toNat ≤ 24) → divisor p = none)

/-- 40_realtime_dispatch.md section 3, the steady-state law (derived there), with decision D4: over every schedule of
Clock bytes, of either mode-select level, and ticks, the counter counts the counted Clocks modulo the divisor, which
stays; and after any such schedule a further counted Clock makes a fire request and clears the counter if it completes a
multiple of the divisor, and is only counted otherwise. From a cleared counter these are every `div`-th counted Clock;
from START's preset `div - 1` they are the counted Clocks number 1, `1 + div`, `1 + 2 * div` and so on. -/
def Obligations.EveryDivthClockFires : Prop :=
  ∀ (es : List Input) (s : State), s.clkCnt.toNat < s.div.toNat → s.div.toNat ≤ 24 →
    (∀ e ∈ es, e = .tick ∨ ∃ m, e = .byte 0xF8#8 m) →
    ∃ t, runOn es s = .next t ∧ t.div = s.div ∧ t.running = s.running ∧
      t.clkCnt.toNat = (s.clkCnt.toNat + countedClocks s.running es) % s.div.toNat ∧
      ∀ m, m = .high ∨ s.running = true →
        (s.div.toNat ∣ s.clkCnt.toNat + countedClocks s.running es + 1 →
          exec (.clock m) t = .next { fire t with clkCnt := 0#5 }) ∧
        (¬s.div.toNat ∣ s.clkCnt.toNat + countedClocks s.running es + 1 →
          exec (.clock m) t = .next { t with clkCnt := t.clkCnt + 1#5 })

/-- 10_state.md section 7 with decision D12: the mode-select level of a step has no effect on any byte but Clock. -/
def Obligations.ModeMattersOnlyForClock : Prop :=
  ∀ (s : State) (b : Byte) (m m' : Mode) (rest : List Input), b ≠ 0xF8#8 →
    step (s.feed (.byte b m :: rest)) = step (s.feed (.byte b m' :: rest))

/-! ## The pulse generator -/

/-- 42_pulse_generator.md section 1, with decisions D5 and D7: `fire()` starts a countdown of `T(pw_code)` ticks, and does
nothing while a pulse is in progress. -/
def Obligations.FireIsNonRetriggerable : Prop :=
  ∀ s : State,
    (s.cdEn = true → fire s = s) ∧
    (s.cdEn = false → fire s =
      { s with out := true, cdEn := true, cdCnt := pulseTicks s.timebase s.pwCode,
               ports := { s.ports with pgStart := true } }) ∧
    pulseTicks s.timebase .width15ms = 3 * pulseTicks s.timebase .width5ms ∧
    1 ≤ pulseTicks s.timebase .width5ms

/-- 42_pulse_generator.md section 2, TICK and EXPIRY, with decisions D6 and D7: nothing while idle; else one less; and in
the tick that brings the countdown to zero the line falls and the countdown is disabled. -/
def Obligations.TickCountsDownAndExpires : Prop :=
  ∀ (s : State) (rest : List Input), s.inputs = .tick :: rest →
    (s.cdEn = false → step s = .next { s with inputs := rest, ports := Ports.quiet }) ∧
    (s.cdEn = true → 2 ≤ s.cdCnt →
      step s = .next { s with cdCnt := s.cdCnt - 1, inputs := rest, ports := Ports.quiet }) ∧
    (s.cdEn = true → s.cdCnt = 1 →
      step s = .next { s with cdCnt := 0, out := false, cdEn := false, inputs := rest, ports := Ports.quiet })

/-- 42_pulse_generator.md section 3, the width law (derived there), with decisions D5, D6 and D7: a pulse that `fire()`
starts stays high over every schedule of bytes and fewer than `T(pw_code)` ticks, whatever the bytes (configuration
changes, further Clocks, Stop), and falls in its `T(pw_code)`-th tick. Only a reset could cut it short. -/
def Obligations.PulseLastsExactlyItsTicks : Prop :=
  ∀ (es : List Input) (s : State), s.cdEn = false → .reset ∉ es →
    (tickCount es < pulseTicks s.timebase s.pwCode → ∃ t, runOn es (fire s) = .next t ∧
      t.out = true ∧ t.cdEn = true ∧ t.cdCnt = pulseTicks s.timebase s.pwCode - tickCount es) ∧
    (tickCount es + 1 = pulseTicks s.timebase s.pwCode → ∃ t, runOn (es ++ [.tick]) (fire s) = .next t ∧
      t.out = false ∧ t.cdEn = false ∧ t.cdCnt = 0)

/-- 42_pulse_generator.md section 2, with decision D6: nothing but a tick's expiry (the tick of a countdown in progress
that brings it to zero, and disables it) or a reset ever lowers the line; no byte ends a pulse. -/
def Obligations.OnlyTickOrResetLowersLine : Prop :=
  ∀ s t : State, step s = .next t → s.out = true → t.out = false →
    (∃ rest, s.inputs = .tick :: rest ∧ s.cdEn = true ∧ countDown s.cdCnt = 0 ∧ t.cdCnt = 0 ∧ t.cdEn = false) ∨
      (∃ rest, s.inputs = .reset :: rest)

/-- 42_pulse_generator.md section 3, the pulse count law (derived there), with decisions D2 and D5 and the strobe
`pg_start` of 00_scope.md section 6: in every state that meets the invariants, `pg_start` is high in exactly the steps in
which the line rises. -/
def Obligations.PgStartMarksRisingEdges : Prop :=
  ∀ s t : State, Inv s → step s = .next t → (pgStart t = true ↔ syncOut s = false ∧ syncOut t = true)

/-- 10_state.md section 9: a `TICK` step writes no register of the main flow and no store byte. -/
def Obligations.TickTouchesOnlyThePulse : Prop :=
  ∀ (s : State) (rest : List Input), s.inputs = .tick :: rest →
    ∃ t, step s = .next t ∧ SameConfig s t ∧ SameDivider s t ∧ t.sxState = s.sxState ∧ SameStore s t

/-- 60_exceptions.md section 2 with decisions D3 to D7: where a tick that ends a pulse and a Clock byte at the division
boundary fall in one cycle, the expiry comes first and a new pulse starts; in the other interleaving the request is lost.
-/
def Obligations.ExpiryPrecedesByteInOneCycle : Prop :=
  ∀ (s : State) (m : Mode), s.cdEn = true → s.cdCnt = 1 → s.div.toNat ≤ s.clkCnt.toNat + 1 →
    m = .high ∨ s.running = true →
    (∃ t, portCycle { rst := false, tick := true, rxValid := true, rxData := 0xF8#8, modeSel := m } s = .next t ∧
      t.out = true ∧ t.cdEn = true ∧ t.cdCnt = pulseTicks s.timebase s.pwCode ∧ t.clkCnt = 0#5 ∧ pgStart t = true) ∧
    (∃ t, runOn [.byte 0xF8#8 m, .tick] s = .next t ∧ t.out = false ∧ t.cdEn = false ∧ t.clkCnt = 0#5)

/-! ## The ports -/

/-- 00_scope.md section 6, with decisions D2, D3 and D5: one clock cycle. A cycle without a step changes no register and
nothing passes at the ports. Every other cycle leaves the registers and the store as its steps do, one after the other;
`sync_out` still shows the line before the edge; `pg_start` is low without a byte, and with one it is high if and only if
the byte's step raised the line (in a state that meets the invariants); the store is accessed by `RESET` and by bytes
only, and the accesses of a `RESET` stay at the port whatever other steps share its cycle. What the clauses say of a cycle
with `rst` high is the model's choice: that a tick and a byte of the cycle in which `RESET` completes are performed after
it (DEDUCED, notes/assumptions/14.md, which reconciles 70_reset_and_hazards.md section 1 and decision D19 with
60_exceptions.md section 2), and that the cycles which a `RESET` takes for the store, in the spec as many as the store
needs, are this one cycle (DESIGN CHOICE, notes/assumptions/12.md). -/
def Obligations.PortCyclePerformsItsSteps : Prop :=
  ∀ (c : PortCycle) (s : State),
    (c.rst = false → c.tick = false → c.rxValid = false → portCycle c s = .next { s with ports := Ports.quiet }) ∧
    (c.rst = false → ∃ t, portCycle c s = .next t) ∧
    (∀ u, runOn (cycleSteps c) s = .next u →
      ∃ t, portCycle c s = .next t ∧ t = { u with inputs := s.inputs, ports := t.ports }) ∧
    (∀ t, portCycle c s = .next t →
      portOutputs c s = some { syncOut := s.out, pgStart := t.ports.pgStart, nv := t.ports.nvBus } ∧
      (c.rxValid = false → t.ports.pgStart = false) ∧
      (Inv s → ∀ v, runOn (cycleSteps { c with rxValid := false }) s = .next v →
        (t.ports.pgStart = true ↔ v.out = false ∧ t.out = true)) ∧
      (c.rst = false → c.rxValid = false → t.ports.nvBus = []) ∧
      (c.rst = true → ∀ u, step (s.feed [.reset]) = .next u → t.ports.nvBus = u.ports.nvBus))

/-! ## The store and RESET -/

/-- 20_memory.md section 3, with decision D14: a write is read back at once and changes no other byte. The last clause,
that an access at an offset above 1 faults, is the model's choice (DEDUCED, notes/assumptions/6.md): 20_memory.md section
2 says only that no such offset exists, and the spec gives `MemWrite` no failure outcome at the offsets that do. -/
def Obligations.StoreReadsBackLastWrite : Prop :=
  ∀ (a : Nat) (v : Byte) (s : State),
    (a < 2 → Memory.wf s.nv = true → ∃ t, storeByte a v s = .next t ∧ readByte a t = .ok v ∧
      (∀ b, b ≠ a → readByte b t = readByte b s) ∧ t.ports.nvBus = s.ports.nvBus ++ [.write a v]) ∧
    (2 ≤ a → storeByte a v s = .fault (.noSuchStoreOffset a) ∧ readByte a s = .error (.noSuchStoreOffset a))

/-- The store's canonical form is kept by every step from every state that has it (the model's own form,
notes/assumptions/6.md). -/
def Obligations.EveryStepKeepsStoreCanonical : Prop :=
  ∀ s t : State, Memory.wf s.nv = true → step s = .next t → Memory.wf t.nv = true

/-- 10_state.md section 10 and 70_reset_and_hazards.md section 1 (derived there, with decision D9): the registers and the
store right after a `RESET` from a fresh store; that State.reset is a fresh store's is the model's choice
(notes/assumptions/5.md). -/
def Obligations.ResetStateHasItsValues : Prop :=
  State.reset.ppqn = 2#5 ∧ State.reset.div = 12#5 ∧ State.reset.pwCode = .width5ms ∧ State.reset.clkCnt = 0#5 ∧
  State.reset.running = false ∧ State.reset.sxState = .idle ∧ State.reset.out = false ∧
  State.reset.cdEn = false ∧ State.reset.cdCnt = 0 ∧
  readByte 0 State.reset = .ok 2#8 ∧ readByte 1 State.reset = .ok 1#8

/-- 70_reset_and_hazards.md section 1, with decisions D9 and D10: `RESET` from a legal store image loads each register
from its key, or writes the default over a sentinel and takes it; each key on its own, `PPQN` first; and the reads and
writes at the store port are in that order. -/
def Obligations.ResetLoadsConfiguration : Prop :=
  ∀ (s : State) (p w : Byte) (rest : List Input), s.inputs = .reset :: rest → Memory.wf s.nv = true → NvLegal s →
    readByte 0 s = .ok p → readByte 1 s = .ok w →
    ∃ t, step s = .next t ∧
      (p = 0xFF#8 → t.ppqn = 2#5 ∧ readByte 0 t = .ok 2#8) ∧
      (p ≠ 0xFF#8 → t.ppqn.toNat = p.toNat ∧ readByte 0 t = .ok p) ∧
      (w = 0xFF#8 → t.pwCode = .width5ms ∧ readByte 1 t = .ok 1#8) ∧
      (w ≠ 0xFF#8 → pwByte t.pwCode = w ∧ readByte 1 t = .ok w) ∧
      t.div.toNat = 24 / t.ppqn.toNat ∧ t.clkCnt = 0#5 ∧ t.running = false ∧ t.sxState = .idle ∧
      t.out = false ∧ t.cdEn = false ∧ t.cdCnt = 0 ∧
      t.ports.pgStart = false ∧
      t.ports.nvBus = [.read 0 p] ++ (if p = 0xFF#8 then [.write 0 2#8] else []) ++
        [.read 1 w] ++ (if w = 0xFF#8 then [.write 1 1#8] else []) ∧
      t.timebase = s.timebase ∧ t.inputs = rest

/-- 70_reset_and_hazards.md section 1 with decision D11: a launch from a store image outside `NvLegal` is refused. -/
def Obligations.IllegalStoreImageRefused : Prop :=
  ∀ (s : State) (rest : List Input), s.inputs = .reset :: rest → ¬NvLegal s → step s = .refused .illegalStoreImage

/-- 70_reset_and_hazards.md section 1 (derived there): a `RESET` of any state over an erased store gives the state
`State.reset`, with both reads and both default writes on the store port. (The timebase parameter is the platform's.) -/
def Obligations.ErasedStoreBootsToResetState : Prop :=
  ∀ s : State, s.nv = [] → s.inputs = [.reset] →
    step s = .next { State.reset with
      timebase := s.timebase, ports := { pgStart := false, nvBus := [.read 0 0xFF#8, .write 0 2#8, .read 1 0xFF#8, .write 1 1#8] } }

/-- 20_memory.md section 5, the mirror and round-trip property (derived there): a `RESET` of a running machine brings back
the configuration it had; at the store port there are the two reads, the key `PPQN` first (decision D10,
notes/assumptions/16.md), and no write. -/
def Obligations.ConfigurationSurvivesReboot : Prop :=
  ∀ (s : State) (rest : List Input), Inv s → s.inputs = .reset :: rest →
    ∃ t, step s = .next t ∧ SameConfig s t ∧ SameStore s t ∧
      t.ports.nvBus = [.read 0 (s.ppqn.setWidth 8), .read 1 (pwByte s.pwCode)]

/-! ## Invariants -/

/-- 10_state.md section 8: the invariants hold in the state after reset (with decision D9 for `sx_state` and the
countdown; that State.reset is a fresh store's, with `T5 = 5`, is the model's choice, notes/assumptions/3.md and 5.md). -/
def Obligations.InvariantsHoldAtReset : Prop := Inv State.reset

/-- 10_state.md section 8 (I4 to I8 derived there), with decisions D4 (the bound of the counter), D5 to D7 (the line and
the countdown) and D9 (after `RESET`): every step, of every kind, keeps the invariants: `ppqn` in 1 to 24, `div = floor(24
/ ppqn)`, the counter at most 23, `out = cd_en`, the countdown's range and the mirror of the configuration in the store.
-/
def Obligations.EveryStepKeepsInvariants : Prop :=
  ∀ s t : State, Inv s → step s = .next t → Inv t

/-- 10_state.md section 8 (derived there), with decisions D9, D10 and D11: a `RESET` that is not refused establishes the
invariants, whatever the registers held before. -/
def Obligations.ResetEstablishesInvariants : Prop :=
  ∀ (s t : State) (rest : List Input), Memory.wf s.nv = true → s.inputs = .reset :: rest → step s = .next t → Inv t
end

