-- ==== Sys2Proof/Laws/State.lean ====
section
/-! SUPPORT. The fields of every named state update (Machine/Ops.lean, Machine/Deliver.lean, Safety.lean), one lemma per
field per update. -/

namespace Sys2Proof.Machine

variable (s : State)

/-! ## setSx -/

@[simp] theorem State.setSx_ppqn (x : SxState) : (State.setSx x s).ppqn = s.ppqn := rfl
@[simp] theorem State.setSx_pwCode (x : SxState) : (State.setSx x s).pwCode = s.pwCode := rfl
@[simp] theorem State.setSx_div (x : SxState) : (State.setSx x s).div = s.div := rfl
@[simp] theorem State.setSx_clkCnt (x : SxState) : (State.setSx x s).clkCnt = s.clkCnt := rfl
@[simp] theorem State.setSx_running (x : SxState) : (State.setSx x s).running = s.running := rfl
@[simp] theorem State.setSx_sxState (x : SxState) : (State.setSx x s).sxState = x := rfl
@[simp] theorem State.setSx_out (x : SxState) : (State.setSx x s).out = s.out := rfl
@[simp] theorem State.setSx_cdEn (x : SxState) : (State.setSx x s).cdEn = s.cdEn := rfl
@[simp] theorem State.setSx_cdCnt (x : SxState) : (State.setSx x s).cdCnt = s.cdCnt := rfl
@[simp] theorem State.setSx_nv (x : SxState) : (State.setSx x s).nv = s.nv := rfl
@[simp] theorem State.setSx_timebase (x : SxState) : (State.setSx x s).timebase = s.timebase := rfl
@[simp] theorem State.setSx_inputs (x : SxState) : (State.setSx x s).inputs = s.inputs := rfl
@[simp] theorem State.setSx_ports (x : SxState) : (State.setSx x s).ports = s.ports := rfl

/-! ## setRunning -/

@[simp] theorem State.setRunning_ppqn (r : Bool) : (State.setRunning r s).ppqn = s.ppqn := rfl
@[simp] theorem State.setRunning_pwCode (r : Bool) : (State.setRunning r s).pwCode = s.pwCode := rfl
@[simp] theorem State.setRunning_div (r : Bool) : (State.setRunning r s).div = s.div := rfl
@[simp] theorem State.setRunning_clkCnt (r : Bool) : (State.setRunning r s).clkCnt = s.clkCnt := rfl
@[simp] theorem State.setRunning_running (r : Bool) : (State.setRunning r s).running = r := rfl
@[simp] theorem State.setRunning_sxState (r : Bool) : (State.setRunning r s).sxState = s.sxState := rfl
@[simp] theorem State.setRunning_out (r : Bool) : (State.setRunning r s).out = s.out := rfl
@[simp] theorem State.setRunning_cdEn (r : Bool) : (State.setRunning r s).cdEn = s.cdEn := rfl
@[simp] theorem State.setRunning_cdCnt (r : Bool) : (State.setRunning r s).cdCnt = s.cdCnt := rfl
@[simp] theorem State.setRunning_nv (r : Bool) : (State.setRunning r s).nv = s.nv := rfl
@[simp] theorem State.setRunning_timebase (r : Bool) : (State.setRunning r s).timebase = s.timebase := rfl
@[simp] theorem State.setRunning_inputs (r : Bool) : (State.setRunning r s).inputs = s.inputs := rfl
@[simp] theorem State.setRunning_ports (r : Bool) : (State.setRunning r s).ports = s.ports := rfl

/-! ## setClkCnt -/

@[simp] theorem State.setClkCnt_ppqn (c : BitVec 5) : (State.setClkCnt c s).ppqn = s.ppqn := rfl
@[simp] theorem State.setClkCnt_pwCode (c : BitVec 5) : (State.setClkCnt c s).pwCode = s.pwCode := rfl
@[simp] theorem State.setClkCnt_div (c : BitVec 5) : (State.setClkCnt c s).div = s.div := rfl
@[simp] theorem State.setClkCnt_clkCnt (c : BitVec 5) : (State.setClkCnt c s).clkCnt = c := rfl
@[simp] theorem State.setClkCnt_running (c : BitVec 5) : (State.setClkCnt c s).running = s.running := rfl
@[simp] theorem State.setClkCnt_sxState (c : BitVec 5) : (State.setClkCnt c s).sxState = s.sxState := rfl
@[simp] theorem State.setClkCnt_out (c : BitVec 5) : (State.setClkCnt c s).out = s.out := rfl
@[simp] theorem State.setClkCnt_cdEn (c : BitVec 5) : (State.setClkCnt c s).cdEn = s.cdEn := rfl
@[simp] theorem State.setClkCnt_cdCnt (c : BitVec 5) : (State.setClkCnt c s).cdCnt = s.cdCnt := rfl
@[simp] theorem State.setClkCnt_nv (c : BitVec 5) : (State.setClkCnt c s).nv = s.nv := rfl
@[simp] theorem State.setClkCnt_timebase (c : BitVec 5) : (State.setClkCnt c s).timebase = s.timebase := rfl
@[simp] theorem State.setClkCnt_inputs (c : BitVec 5) : (State.setClkCnt c s).inputs = s.inputs := rfl
@[simp] theorem State.setClkCnt_ports (c : BitVec 5) : (State.setClkCnt c s).ports = s.ports := rfl

/-! ## setPpqn -/

@[simp] theorem State.setPpqn_ppqn (p d : BitVec 5) : (State.setPpqn p d s).ppqn = p := rfl
@[simp] theorem State.setPpqn_pwCode (p d : BitVec 5) : (State.setPpqn p d s).pwCode = s.pwCode := rfl
@[simp] theorem State.setPpqn_div (p d : BitVec 5) : (State.setPpqn p d s).div = d := rfl
@[simp] theorem State.setPpqn_clkCnt (p d : BitVec 5) : (State.setPpqn p d s).clkCnt = s.clkCnt := rfl
@[simp] theorem State.setPpqn_running (p d : BitVec 5) : (State.setPpqn p d s).running = s.running := rfl
@[simp] theorem State.setPpqn_sxState (p d : BitVec 5) : (State.setPpqn p d s).sxState = s.sxState := rfl
@[simp] theorem State.setPpqn_out (p d : BitVec 5) : (State.setPpqn p d s).out = s.out := rfl
@[simp] theorem State.setPpqn_cdEn (p d : BitVec 5) : (State.setPpqn p d s).cdEn = s.cdEn := rfl
@[simp] theorem State.setPpqn_cdCnt (p d : BitVec 5) : (State.setPpqn p d s).cdCnt = s.cdCnt := rfl
@[simp] theorem State.setPpqn_nv (p d : BitVec 5) : (State.setPpqn p d s).nv = s.nv := rfl
@[simp] theorem State.setPpqn_timebase (p d : BitVec 5) : (State.setPpqn p d s).timebase = s.timebase := rfl
@[simp] theorem State.setPpqn_inputs (p d : BitVec 5) : (State.setPpqn p d s).inputs = s.inputs := rfl
@[simp] theorem State.setPpqn_ports (p d : BitVec 5) : (State.setPpqn p d s).ports = s.ports := rfl

/-! ## setPwCode -/

@[simp] theorem State.setPwCode_ppqn (k : PwCode) : (State.setPwCode k s).ppqn = s.ppqn := rfl
@[simp] theorem State.setPwCode_pwCode (k : PwCode) : (State.setPwCode k s).pwCode = k := rfl
@[simp] theorem State.setPwCode_div (k : PwCode) : (State.setPwCode k s).div = s.div := rfl
@[simp] theorem State.setPwCode_clkCnt (k : PwCode) : (State.setPwCode k s).clkCnt = s.clkCnt := rfl
@[simp] theorem State.setPwCode_running (k : PwCode) : (State.setPwCode k s).running = s.running := rfl
@[simp] theorem State.setPwCode_sxState (k : PwCode) : (State.setPwCode k s).sxState = s.sxState := rfl
@[simp] theorem State.setPwCode_out (k : PwCode) : (State.setPwCode k s).out = s.out := rfl
@[simp] theorem State.setPwCode_cdEn (k : PwCode) : (State.setPwCode k s).cdEn = s.cdEn := rfl
@[simp] theorem State.setPwCode_cdCnt (k : PwCode) : (State.setPwCode k s).cdCnt = s.cdCnt := rfl
@[simp] theorem State.setPwCode_nv (k : PwCode) : (State.setPwCode k s).nv = s.nv := rfl
@[simp] theorem State.setPwCode_timebase (k : PwCode) : (State.setPwCode k s).timebase = s.timebase := rfl
@[simp] theorem State.setPwCode_inputs (k : PwCode) : (State.setPwCode k s).inputs = s.inputs := rfl
@[simp] theorem State.setPwCode_ports (k : PwCode) : (State.setPwCode k s).ports = s.ports := rfl

/-! ## setCdCnt -/

@[simp] theorem State.setCdCnt_ppqn (n : Nat) : (State.setCdCnt n s).ppqn = s.ppqn := rfl
@[simp] theorem State.setCdCnt_pwCode (n : Nat) : (State.setCdCnt n s).pwCode = s.pwCode := rfl
@[simp] theorem State.setCdCnt_div (n : Nat) : (State.setCdCnt n s).div = s.div := rfl
@[simp] theorem State.setCdCnt_clkCnt (n : Nat) : (State.setCdCnt n s).clkCnt = s.clkCnt := rfl
@[simp] theorem State.setCdCnt_running (n : Nat) : (State.setCdCnt n s).running = s.running := rfl
@[simp] theorem State.setCdCnt_sxState (n : Nat) : (State.setCdCnt n s).sxState = s.sxState := rfl
@[simp] theorem State.setCdCnt_out (n : Nat) : (State.setCdCnt n s).out = s.out := rfl
@[simp] theorem State.setCdCnt_cdEn (n : Nat) : (State.setCdCnt n s).cdEn = s.cdEn := rfl
@[simp] theorem State.setCdCnt_cdCnt (n : Nat) : (State.setCdCnt n s).cdCnt = n := rfl
@[simp] theorem State.setCdCnt_nv (n : Nat) : (State.setCdCnt n s).nv = s.nv := rfl
@[simp] theorem State.setCdCnt_timebase (n : Nat) : (State.setCdCnt n s).timebase = s.timebase := rfl
@[simp] theorem State.setCdCnt_inputs (n : Nat) : (State.setCdCnt n s).inputs = s.inputs := rfl
@[simp] theorem State.setCdCnt_ports (n : Nat) : (State.setCdCnt n s).ports = s.ports := rfl

/-! ## raiseLine -/

@[simp] theorem State.raiseLine_ppqn (n : Nat) : (State.raiseLine n s).ppqn = s.ppqn := rfl
@[simp] theorem State.raiseLine_pwCode (n : Nat) : (State.raiseLine n s).pwCode = s.pwCode := rfl
@[simp] theorem State.raiseLine_div (n : Nat) : (State.raiseLine n s).div = s.div := rfl
@[simp] theorem State.raiseLine_clkCnt (n : Nat) : (State.raiseLine n s).clkCnt = s.clkCnt := rfl
@[simp] theorem State.raiseLine_running (n : Nat) : (State.raiseLine n s).running = s.running := rfl
@[simp] theorem State.raiseLine_sxState (n : Nat) : (State.raiseLine n s).sxState = s.sxState := rfl
@[simp] theorem State.raiseLine_out (n : Nat) : (State.raiseLine n s).out = true := rfl
@[simp] theorem State.raiseLine_cdEn (n : Nat) : (State.raiseLine n s).cdEn = true := rfl
@[simp] theorem State.raiseLine_cdCnt (n : Nat) : (State.raiseLine n s).cdCnt = n := rfl
@[simp] theorem State.raiseLine_nv (n : Nat) : (State.raiseLine n s).nv = s.nv := rfl
@[simp] theorem State.raiseLine_timebase (n : Nat) : (State.raiseLine n s).timebase = s.timebase := rfl
@[simp] theorem State.raiseLine_inputs (n : Nat) : (State.raiseLine n s).inputs = s.inputs := rfl
@[simp] theorem State.raiseLine_ports (n : Nat) : (State.raiseLine n s).ports = { s.ports with pgStart := true } := rfl

/-! ## lowerLine -/

@[simp] theorem State.lowerLine_ppqn : (State.lowerLine s).ppqn = s.ppqn := rfl
@[simp] theorem State.lowerLine_pwCode : (State.lowerLine s).pwCode = s.pwCode := rfl
@[simp] theorem State.lowerLine_div : (State.lowerLine s).div = s.div := rfl
@[simp] theorem State.lowerLine_clkCnt : (State.lowerLine s).clkCnt = s.clkCnt := rfl
@[simp] theorem State.lowerLine_running : (State.lowerLine s).running = s.running := rfl
@[simp] theorem State.lowerLine_sxState : (State.lowerLine s).sxState = s.sxState := rfl
@[simp] theorem State.lowerLine_out : (State.lowerLine s).out = false := rfl
@[simp] theorem State.lowerLine_cdEn : (State.lowerLine s).cdEn = false := rfl
@[simp] theorem State.lowerLine_cdCnt : (State.lowerLine s).cdCnt = s.cdCnt := rfl
@[simp] theorem State.lowerLine_nv : (State.lowerLine s).nv = s.nv := rfl
@[simp] theorem State.lowerLine_timebase : (State.lowerLine s).timebase = s.timebase := rfl
@[simp] theorem State.lowerLine_inputs : (State.lowerLine s).inputs = s.inputs := rfl
@[simp] theorem State.lowerLine_ports : (State.lowerLine s).ports = s.ports := rfl

/-! ## setNv -/

@[simp] theorem State.setNv_ppqn (a : Nat) (v : Byte) (m : Memory) : (State.setNv a v m s).ppqn = s.ppqn := rfl
@[simp] theorem State.setNv_pwCode (a : Nat) (v : Byte) (m : Memory) : (State.setNv a v m s).pwCode = s.pwCode := rfl
@[simp] theorem State.setNv_div (a : Nat) (v : Byte) (m : Memory) : (State.setNv a v m s).div = s.div := rfl
@[simp] theorem State.setNv_clkCnt (a : Nat) (v : Byte) (m : Memory) : (State.setNv a v m s).clkCnt = s.clkCnt := rfl
@[simp] theorem State.setNv_running (a : Nat) (v : Byte) (m : Memory) : (State.setNv a v m s).running = s.running := rfl
@[simp] theorem State.setNv_sxState (a : Nat) (v : Byte) (m : Memory) : (State.setNv a v m s).sxState = s.sxState := rfl
@[simp] theorem State.setNv_out (a : Nat) (v : Byte) (m : Memory) : (State.setNv a v m s).out = s.out := rfl
@[simp] theorem State.setNv_cdEn (a : Nat) (v : Byte) (m : Memory) : (State.setNv a v m s).cdEn = s.cdEn := rfl
@[simp] theorem State.setNv_cdCnt (a : Nat) (v : Byte) (m : Memory) : (State.setNv a v m s).cdCnt = s.cdCnt := rfl
@[simp] theorem State.setNv_nv (a : Nat) (v : Byte) (m : Memory) : (State.setNv a v m s).nv = m := rfl
@[simp] theorem State.setNv_timebase (a : Nat) (v : Byte) (m : Memory) : (State.setNv a v m s).timebase = s.timebase := rfl
@[simp] theorem State.setNv_inputs (a : Nat) (v : Byte) (m : Memory) : (State.setNv a v m s).inputs = s.inputs := rfl
@[simp] theorem State.setNv_ports (a : Nat) (v : Byte) (m : Memory) : (State.setNv a v m s).ports = { s.ports with nvBus := s.ports.nvBus ++ [.write a v] } := rfl

/-! ## noteRead -/

@[simp] theorem State.noteRead_ppqn (a : Nat) (v : Byte) : (State.noteRead a v s).ppqn = s.ppqn := rfl
@[simp] theorem State.noteRead_pwCode (a : Nat) (v : Byte) : (State.noteRead a v s).pwCode = s.pwCode := rfl
@[simp] theorem State.noteRead_div (a : Nat) (v : Byte) : (State.noteRead a v s).div = s.div := rfl
@[simp] theorem State.noteRead_clkCnt (a : Nat) (v : Byte) : (State.noteRead a v s).clkCnt = s.clkCnt := rfl
@[simp] theorem State.noteRead_running (a : Nat) (v : Byte) : (State.noteRead a v s).running = s.running := rfl
@[simp] theorem State.noteRead_sxState (a : Nat) (v : Byte) : (State.noteRead a v s).sxState = s.sxState := rfl
@[simp] theorem State.noteRead_out (a : Nat) (v : Byte) : (State.noteRead a v s).out = s.out := rfl
@[simp] theorem State.noteRead_cdEn (a : Nat) (v : Byte) : (State.noteRead a v s).cdEn = s.cdEn := rfl
@[simp] theorem State.noteRead_cdCnt (a : Nat) (v : Byte) : (State.noteRead a v s).cdCnt = s.cdCnt := rfl
@[simp] theorem State.noteRead_nv (a : Nat) (v : Byte) : (State.noteRead a v s).nv = s.nv := rfl
@[simp] theorem State.noteRead_timebase (a : Nat) (v : Byte) : (State.noteRead a v s).timebase = s.timebase := rfl
@[simp] theorem State.noteRead_inputs (a : Nat) (v : Byte) : (State.noteRead a v s).inputs = s.inputs := rfl
@[simp] theorem State.noteRead_ports (a : Nat) (v : Byte) : (State.noteRead a v s).ports = { s.ports with nvBus := s.ports.nvBus ++ [.read a v] } := rfl

/-! ## enterStep -/

@[simp] theorem State.enterStep_ppqn (l : List Input) : (State.enterStep l s).ppqn = s.ppqn := rfl
@[simp] theorem State.enterStep_pwCode (l : List Input) : (State.enterStep l s).pwCode = s.pwCode := rfl
@[simp] theorem State.enterStep_div (l : List Input) : (State.enterStep l s).div = s.div := rfl
@[simp] theorem State.enterStep_clkCnt (l : List Input) : (State.enterStep l s).clkCnt = s.clkCnt := rfl
@[simp] theorem State.enterStep_running (l : List Input) : (State.enterStep l s).running = s.running := rfl
@[simp] theorem State.enterStep_sxState (l : List Input) : (State.enterStep l s).sxState = s.sxState := rfl
@[simp] theorem State.enterStep_out (l : List Input) : (State.enterStep l s).out = s.out := rfl
@[simp] theorem State.enterStep_cdEn (l : List Input) : (State.enterStep l s).cdEn = s.cdEn := rfl
@[simp] theorem State.enterStep_cdCnt (l : List Input) : (State.enterStep l s).cdCnt = s.cdCnt := rfl
@[simp] theorem State.enterStep_nv (l : List Input) : (State.enterStep l s).nv = s.nv := rfl
@[simp] theorem State.enterStep_timebase (l : List Input) : (State.enterStep l s).timebase = s.timebase := rfl
@[simp] theorem State.enterStep_inputs (l : List Input) : (State.enterStep l s).inputs = l := rfl
@[simp] theorem State.enterStep_ports (l : List Input) : (State.enterStep l s).ports = { pgStart := false, nvBus := [] } := rfl

/-! ## afterReset -/

@[simp] theorem State.afterReset_ppqn (p d : BitVec 5) (k : PwCode) : (State.afterReset p d k s).ppqn = p := rfl
@[simp] theorem State.afterReset_pwCode (p d : BitVec 5) (k : PwCode) : (State.afterReset p d k s).pwCode = k := rfl
@[simp] theorem State.afterReset_div (p d : BitVec 5) (k : PwCode) : (State.afterReset p d k s).div = d := rfl
@[simp] theorem State.afterReset_clkCnt (p d : BitVec 5) (k : PwCode) : (State.afterReset p d k s).clkCnt = 0#5 := rfl
@[simp] theorem State.afterReset_running (p d : BitVec 5) (k : PwCode) : (State.afterReset p d k s).running = false := rfl
@[simp] theorem State.afterReset_sxState (p d : BitVec 5) (k : PwCode) : (State.afterReset p d k s).sxState = .idle := rfl
@[simp] theorem State.afterReset_out (p d : BitVec 5) (k : PwCode) : (State.afterReset p d k s).out = false := rfl
@[simp] theorem State.afterReset_cdEn (p d : BitVec 5) (k : PwCode) : (State.afterReset p d k s).cdEn = false := rfl
@[simp] theorem State.afterReset_cdCnt (p d : BitVec 5) (k : PwCode) : (State.afterReset p d k s).cdCnt = 0 := rfl
@[simp] theorem State.afterReset_nv (p d : BitVec 5) (k : PwCode) : (State.afterReset p d k s).nv = s.nv := rfl
@[simp] theorem State.afterReset_timebase (p d : BitVec 5) (k : PwCode) : (State.afterReset p d k s).timebase = s.timebase := rfl
@[simp] theorem State.afterReset_inputs (p d : BitVec 5) (k : PwCode) : (State.afterReset p d k s).inputs = s.inputs := rfl
@[simp] theorem State.afterReset_ports (p d : BitVec 5) (k : PwCode) : (State.afterReset p d k s).ports = s.ports := rfl

/-! ## feed -/

@[simp] theorem State.feed_ppqn (l : List Input) : (State.feed l s).ppqn = s.ppqn := rfl
@[simp] theorem State.feed_pwCode (l : List Input) : (State.feed l s).pwCode = s.pwCode := rfl
@[simp] theorem State.feed_div (l : List Input) : (State.feed l s).div = s.div := rfl
@[simp] theorem State.feed_clkCnt (l : List Input) : (State.feed l s).clkCnt = s.clkCnt := rfl
@[simp] theorem State.feed_running (l : List Input) : (State.feed l s).running = s.running := rfl
@[simp] theorem State.feed_sxState (l : List Input) : (State.feed l s).sxState = s.sxState := rfl
@[simp] theorem State.feed_out (l : List Input) : (State.feed l s).out = s.out := rfl
@[simp] theorem State.feed_cdEn (l : List Input) : (State.feed l s).cdEn = s.cdEn := rfl
@[simp] theorem State.feed_cdCnt (l : List Input) : (State.feed l s).cdCnt = s.cdCnt := rfl
@[simp] theorem State.feed_nv (l : List Input) : (State.feed l s).nv = s.nv := rfl
@[simp] theorem State.feed_timebase (l : List Input) : (State.feed l s).timebase = s.timebase := rfl
@[simp] theorem State.feed_inputs (l : List Input) : (State.feed l s).inputs = l := rfl
@[simp] theorem State.feed_ports (l : List Input) : (State.feed l s).ports = s.ports := rfl

/-! ## deliverNext -/

@[simp] theorem State.deliverNext_ppqn (c : Context) (b : Byte) : (State.deliverNext c b s).ppqn = s.ppqn := rfl
@[simp] theorem State.deliverNext_pwCode (c : Context) (b : Byte) : (State.deliverNext c b s).pwCode = s.pwCode := rfl
@[simp] theorem State.deliverNext_div (c : Context) (b : Byte) : (State.deliverNext c b s).div = s.div := rfl
@[simp] theorem State.deliverNext_clkCnt (c : Context) (b : Byte) : (State.deliverNext c b s).clkCnt = s.clkCnt := rfl
@[simp] theorem State.deliverNext_running (c : Context) (b : Byte) : (State.deliverNext c b s).running = s.running := rfl
@[simp] theorem State.deliverNext_sxState (c : Context) (b : Byte) : (State.deliverNext c b s).sxState = c.sx := rfl
@[simp] theorem State.deliverNext_out (c : Context) (b : Byte) : (State.deliverNext c b s).out = s.out := rfl
@[simp] theorem State.deliverNext_cdEn (c : Context) (b : Byte) : (State.deliverNext c b s).cdEn = s.cdEn := rfl
@[simp] theorem State.deliverNext_cdCnt (c : Context) (b : Byte) : (State.deliverNext c b s).cdCnt = s.cdCnt := rfl
@[simp] theorem State.deliverNext_nv (c : Context) (b : Byte) : (State.deliverNext c b s).nv = s.nv := rfl
@[simp] theorem State.deliverNext_timebase (c : Context) (b : Byte) : (State.deliverNext c b s).timebase = s.timebase := rfl
@[simp] theorem State.deliverNext_inputs (c : Context) (b : Byte) : (State.deliverNext c b s).inputs = .byte b c.mode :: s.inputs := rfl
@[simp] theorem State.deliverNext_ports (c : Context) (b : Byte) : (State.deliverNext c b s).ports = s.ports := rfl

end Sys2Proof.Machine
end

