-- ==== Sys2Proof/Laws/Memory.lean ====
section
/-! SUPPORT. The laws of the store (20_memory.md R31, R32): read after write, the canonical form is kept, and stores in
canonical form that read alike are equal. -/

namespace Sys2Proof.Machine

/-! ## Reading after a write -/

@[simp] theorem Memory.get_cons_self (a : Nat) (v : Byte) (m : Memory) (h : Memory.get a m = nvSentinel) :
    Memory.get a (Memory.cons a v m) = v := by
  unfold Memory.cons
  split
  · next hv => rw [h, hv]
  · simp [Memory.get]

theorem Memory.get_cons_other {a b : Nat} (hab : a ≠ b) (v : Byte) (m : Memory) :
    Memory.get a (Memory.cons b v m) = Memory.get a m := by
  unfold Memory.cons
  split
  · rfl
  · simp [Memory.get, hab]

/-- In the canonical form from `lo` on, every offset below `lo` reads as erased. -/
theorem Memory.get_below {m : Memory} {lo a : Nat} (h : Memory.wfFrom lo m = true) (ha : a < lo) :
    Memory.get a m = nvSentinel := by
  induction m generalizing lo with
  | nil => rfl
  | cons c m ih =>
    simp only [Memory.wfFrom, Bool.and_eq_true, decide_eq_true_eq] at h
    have hne : a ≠ c.1 := by omega
    simp only [Memory.get, hne, if_false]
    exact ih h.2 (by omega)

theorem Memory.get_put_self {m : Memory} {lo : Nat} (h : Memory.wfFrom lo m = true) (a : Nat) (v : Byte) :
    Memory.get a (Memory.put a v m) = v := by
  induction m generalizing lo with
  | nil => exact Memory.get_cons_self a v [] rfl
  | cons c m ih =>
    have h0 := h
    simp only [Memory.wfFrom, Bool.and_eq_true, decide_eq_true_eq] at h
    obtain ⟨⟨⟨hlo, -⟩, -⟩, hm⟩ := h
    unfold Memory.put
    split
    · next hlt =>
      have hne : a ≠ c.1 := by omega
      refine Memory.get_cons_self a v _ ?_
      simp only [Memory.get, hne, if_false]
      exact Memory.get_below hm (by omega)
    · split
      · next heq => exact Memory.get_cons_self a v _ (Memory.get_below hm (by omega))
      · next hne => simp only [Memory.get, hne, if_false]; exact ih hm

theorem Memory.get_put_other {a b : Nat} (hab : a ≠ b) (v : Byte) (m : Memory) :
    Memory.get a (Memory.put b v m) = Memory.get a m := by
  induction m with
  | nil => exact Memory.get_cons_other hab v []
  | cons c m ih =>
    unfold Memory.put
    split
    · exact Memory.get_cons_other hab v _
    · split
      · next heq =>
        have : a ≠ c.1 := by omega
        rw [Memory.get_cons_other hab]
        simp [Memory.get, this]
      · simp only [Memory.get, ih]

/-! ## The canonical form -/

theorem Memory.wfFrom_mono {m : Memory} {lo lo' : Nat} (h : Memory.wfFrom lo m = true) (hle : lo' ≤ lo) :
    Memory.wfFrom lo' m = true := by
  cases m with
  | nil => rfl
  | cons c m =>
    simp only [Memory.wfFrom, Bool.and_eq_true, decide_eq_true_eq] at h ⊢
    exact ⟨⟨⟨by omega, h.1.1.2⟩, h.1.2⟩, h.2⟩

theorem Memory.wfFrom_cons {m : Memory} {a : Nat} (h : Memory.wfFrom (a + 1) m = true) (ha : offsetExists a = true)
    (v : Byte) : Memory.wfFrom a (Memory.cons a v m) = true := by
  unfold Memory.cons
  split
  · exact Memory.wfFrom_mono h (by omega)
  · next hv => simp [Memory.wfFrom, ha, hv, h]

theorem Memory.wfFrom_put {m : Memory} {lo a : Nat} (h : Memory.wfFrom lo m = true) (ha : offsetExists a = true)
    (hlo : lo ≤ a) (v : Byte) : Memory.wfFrom lo (Memory.put a v m) = true := by
  induction m generalizing lo with
  | nil => exact Memory.wfFrom_mono (Memory.wfFrom_cons (m := []) rfl ha v) hlo
  | cons c m ih =>
    have h0 := h
    simp only [Memory.wfFrom, Bool.and_eq_true, decide_eq_true_eq] at h
    obtain ⟨⟨⟨hc, hex⟩, hne⟩, hm⟩ := h
    unfold Memory.put
    split
    · next hlt =>
      refine Memory.wfFrom_mono (Memory.wfFrom_cons ?_ ha v) hlo
      simp [Memory.wfFrom, hex, hm, hne, Nat.succ_le_of_lt hlt]
    · split
      · next heq => subst heq; exact Memory.wfFrom_mono (Memory.wfFrom_cons hm ha v) hlo
      · next hnlt hne' =>
        simp only [Memory.wfFrom, Bool.and_eq_true, decide_eq_true_eq]
        exact ⟨⟨⟨hc, hex⟩, hne⟩, ih hm (by omega)⟩

/-- Every write to an existing offset keeps the canonical form. -/
theorem Memory.wf_put {m : Memory} {a : Nat} (h : Memory.wf m = true) (ha : offsetExists a = true) (v : Byte) :
    Memory.wf (Memory.put a v m) = true :=
  Memory.wfFrom_put h ha (Nat.zero_le a) v

/-- The reset store is in the canonical form. -/
theorem reset_store_wf : Memory.wf State.reset.nv = true := by decide

theorem Memory.ext_wfFrom {m m' : Memory} {lo : Nat} (h : Memory.wfFrom lo m = true) (h' : Memory.wfFrom lo m' = true)
    (heq : ∀ a, Memory.get a m = Memory.get a m') : m = m' := by
  induction m generalizing lo m' with
  | nil =>
    cases m' with
    | nil => rfl
    | cons c m' =>
      simp only [Memory.wfFrom, Bool.and_eq_true, bne_iff_ne, ne_eq] at h'
      have := heq c.1
      simp only [Memory.get, if_true] at this
      exact absurd this.symm h'.1.2
  | cons c m ih =>
    have hc := h
    simp only [Memory.wfFrom, Bool.and_eq_true, bne_iff_ne, ne_eq, decide_eq_true_eq] at hc
    obtain ⟨⟨⟨hlo, -⟩, hv⟩, hm⟩ := hc
    have hget : Memory.get c.1 (c :: m) = c.2 := by simp [Memory.get]
    cases m' with
    | nil =>
      have := heq c.1
      rw [hget] at this
      exact absurd this hv
    | cons d m' =>
      simp only [Memory.wfFrom, Bool.and_eq_true, bne_iff_ne, ne_eq, decide_eq_true_eq] at h'
      obtain ⟨⟨⟨hlo', -⟩, hw⟩, hm'⟩ := h'
      have hget' : Memory.get d.1 (d :: m') = d.2 := by simp [Memory.get]
      have hcd : c.1 = d.1 := by
        by_contra hne
        rcases Nat.lt_or_gt_of_ne hne with hlt | hlt
        · have h1 := heq c.1
          rw [hget] at h1
          have : Memory.get c.1 (d :: m') = nvSentinel := by
            simp only [Memory.get, hne, if_false]; exact Memory.get_below hm' (by omega)
          exact hv (h1.trans this)
        · have h1 := heq d.1
          rw [hget'] at h1
          have : Memory.get d.1 (c :: m) = nvSentinel := by
            simp only [Memory.get, Ne.symm hne, if_false]; exact Memory.get_below hm (by omega)
          exact hw (h1.symm.trans this)
      have hval : c.2 = d.2 := by
        have h1 := heq c.1
        rw [hget, hcd, hget'] at h1
        exact h1
      have hrest : m = m' := by
        refine ih hm (hcd ▸ hm') fun a => ?_
        by_cases ha : a = c.1
        · subst ha
          rw [Memory.get_below hm (by omega), Memory.get_below hm' (by omega)]
        · have h1 := heq a
          have ha' : a ≠ d.1 := hcd ▸ ha
          simpa only [Memory.get, ha, ha', if_false] using h1
      obtain ⟨c1, c2⟩ := c
      obtain ⟨d1, d2⟩ := d
      simp only at hcd hval
      rw [hcd, hval, hrest]

/-- Two stores in canonical form that read alike at every offset are equal. -/
theorem Memory.ext_of_wf {m m' : Memory} (h : Memory.wf m = true) (h' : Memory.wf m' = true)
    (heq : ∀ a, Memory.get a m = Memory.get a m') : m = m' :=
  Memory.ext_wfFrom h h' heq

end Sys2Proof.Machine
end

