-- ==== Sys2Proof/Laws/Ops.lean ====
section
/-! SUPPORT. One lemma for each shared operation of Machine/Ops.lean, Operands.lean and Flags.lean that says once
everything it can do. Later proofs cite these and do not unfold the operations. -/

namespace Sys2Proof.Machine

/-! ## Sequencing -/

@[simp] theorem andThen_next (s : State) (f : State → Result) : andThen (.next s) f = f s := rfl

theorem andThen_cases {r : Result} {f : State → Result} {t : State} (h : andThen r f = .next t) :
    ∃ s, r = .next s ∧ f s = .next t := by
  cases r with
  | next s => exact ⟨s, rfl, h⟩
  | fault e => simp [andThen] at h
  | refused e => simp [andThen] at h

/-! ## Operands and flags -/

theorem divisor_cases {p d : BitVec 5} (h : divisor p = some d) :
    1 ≤ p.toNat ∧ p.toNat ≤ 24 ∧ d.toNat = 24 / p.toNat := by
  unfold divisor at h
  split at h
  · next hp =>
    have hd : BitVec.ofNat 5 (clocksPerQuarter / p.toNat) = d := by simpa using h
    refine ⟨hp.1, hp.2, ?_⟩
    have : 24 / p.toNat ≤ 24 := Nat.div_le_self 24 _
    rw [← hd, BitVec.toNat_ofNat, clocksPerQuarter, Nat.mod_eq_of_lt (by omega)]
  · simp at h

theorem divisor_of_range {p : BitVec 5} (h1 : 1 ≤ p.toNat) (h2 : p.toNat ≤ 24) :
    ∃ d, divisor p = some d ∧ d.toNat = 24 / p.toNat := by
  have h : divisor p = some (BitVec.ofNat 5 (clocksPerQuarter / p.toNat)) := by simp [divisor, h1, h2]
  exact ⟨_, h, (divisor_cases h).2.2⟩

theorem divisor_out_of_range {p : BitVec 5} (h : ¬(1 ≤ p.toNat ∧ p.toNat ≤ 24)) : divisor p = none := by
  simp [divisor, h]

theorem nextCount_toNat (c : BitVec 5) : (nextCount c).toNat = c.toNat + 1 := by
  have := c.isLt
  simp [nextCount, BitVec.toNat_setWidth, BitVec.toNat_add]
  omega

theorem reachesDivisor_iff (c div : BitVec 5) :
    reachesDivisor (nextCount c) div = true ↔ div.toNat ≤ c.toNat + 1 := by
  simp [reachesDivisor, nextCount_toNat]

theorem startPreset_toNat {div : BitVec 5} (h : 1 ≤ div.toNat) : (startPreset div).toNat = div.toNat - 1 := by
  have hne : div ≠ 0#5 := by rintro rfl; simp at h
  have h1 : 1#5 ≤ div := by simpa [BitVec.le_def] using h
  simp only [startPreset, hne, if_false]
  exact BitVec.toNat_sub_of_le h1

@[simp] theorem countDown_succ (n : Nat) : countDown (n + 1) = n := rfl

theorem pulseTicks_pos (tb : Timebase) (k : PwCode) : 1 ≤ pulseTicks tb k := by
  cases k <;> simp only [pulseTicks] <;> omega

theorem pulseTicks_le (tb : Timebase) (k : PwCode) : pulseTicks tb k ≤ 3 * (tb.t5Pred + 1) := by
  cases k <;> simp only [pulseTicks] <;> omega

/-! ## The store -/

/-- A read depends on the store alone. -/
theorem readByte_of_nv {s t : State} (h : t.nv = s.nv) (a : Nat) : readByte a t = readByte a s := by
  simp [readByte, h]

theorem readByte_ok {a : Nat} {s : State} {v : Byte} :
    readByte a s = .ok v ↔ offsetExists a = true ∧ Memory.get a s.nv = v := by
  unfold readByte
  split <;> simp_all

/-- A store that is carried out is at an offset that exists, and its effect is the one named update. -/
theorem storeByte_cases {a : Nat} {v : Byte} {s t : State} (h : storeByte a v s = .next t) :
    offsetExists a = true ∧ t = s.setNv a v (Memory.put a v s.nv) := by
  unfold storeByte at h
  split at h
  · next ha => exact ⟨ha, by simpa using h.symm⟩
  · simp at h

theorem storeByte_ppqn (v : Byte) (s : State) :
    storeByte nvPpqnOffset v s = .next (s.setNv nvPpqnOffset v (Memory.put nvPpqnOffset v s.nv)) := rfl

theorem storeByte_pw (v : Byte) (s : State) :
    storeByte nvPwOffset v s = .next (s.setNv nvPwOffset v (Memory.put nvPwOffset v s.nv)) := rfl

theorem readByte_setNv_self {a : Nat} {v : Byte} {s : State} (hw : Memory.wf s.nv = true)
    (ha : offsetExists a = true) : readByte a (s.setNv a v (Memory.put a v s.nv)) = .ok v :=
  readByte_ok.2 ⟨ha, Memory.get_put_self hw a v⟩

theorem readByte_setNv_other {a b : Nat} (hab : b ≠ a) (v : Byte) (s : State) :
    readByte b (s.setNv a v (Memory.put a v s.nv)) = readByte b s := by
  simp [readByte, Memory.get_put_other hab]

/-! ## The pulse generator and the divider -/

theorem fire_idle {s : State} (h : s.cdEn = false) : fire s = s.raiseLine (pulseTicks s.timebase s.pwCode) := by
  simp [fire, h]

theorem fire_busy {s : State} (h : s.cdEn = true) : fire s = s := by simp [fire, h]

theorem fire_cases (s : State) :
    (s.cdEn = true ∧ fire s = s) ∨
    (s.cdEn = false ∧ fire s = s.raiseLine (pulseTicks s.timebase s.pwCode)) := by
  cases h : s.cdEn with
  | true => exact .inl ⟨rfl, fire_busy h⟩
  | false => exact .inr ⟨rfl, fire_idle h⟩

theorem tick_cases (s : State) :
    (s.cdEn = false ∧ tick s = s) ∨
    (s.cdEn = true ∧ countDown s.cdCnt ≠ 0 ∧ tick s = s.setCdCnt (countDown s.cdCnt)) ∨
    (s.cdEn = true ∧ countDown s.cdCnt = 0 ∧ tick s = (s.setCdCnt 0).lowerLine) := by
  cases h : s.cdEn with
  | false => exact .inl ⟨rfl, by simp [tick, h]⟩
  | true =>
    by_cases h0 : countDown s.cdCnt = 0
    · exact .inr (.inr ⟨rfl, h0, by simp [tick, h, h0, countdownExpired, expiry]⟩)
    · exact .inr (.inl ⟨rfl, h0, by simp [tick, h, h0, countdownExpired]⟩)

theorem countClock_cases (s : State) :
    (s.div.toNat ≤ s.clkCnt.toNat + 1 ∧ countClock s = (fire s).setClkCnt 0#5) ∨
    (s.clkCnt.toNat + 1 < s.div.toNat ∧ countClock s = s.setClkCnt (s.clkCnt + 1#5)) := by
  by_cases h : s.div.toNat ≤ s.clkCnt.toNat + 1
  · exact .inl ⟨h, by simp [countClock, (reachesDivisor_iff _ _).2 h]⟩
  · have hr : reachesDivisor (nextCount s.clkCnt) s.div = false := by
      rw [Bool.eq_false_iff]
      exact fun hh => h ((reachesDivisor_iff _ _).1 hh)
    have hw : (nextCount s.clkCnt).setWidth 5 = s.clkCnt + 1#5 := by
      simp [nextCount, BitVec.setWidth_add]
    exact .inr ⟨by omega, by simp [countClock, hr, hw]⟩

/-! ## The configuration setters -/

theorem applyPpqn_cases (val : BitVec 5) (s : State) :
    (¬(1 ≤ val.toNat ∧ val.toNat ≤ 24) ∧ applyPpqn val s = .next s) ∨
    (∃ d, 1 ≤ val.toNat ∧ val.toNat ≤ 24 ∧ d.toNat = 24 / val.toNat ∧
      applyPpqn val s = .next ((s.setPpqn val d).setNv nvPpqnOffset (val.setWidth 8)
        (Memory.put nvPpqnOffset (val.setWidth 8) s.nv))) := by
  by_cases h : 1 ≤ val.toNat ∧ val.toNat ≤ 24
  · obtain ⟨d, hd, hn⟩ := divisor_of_range h.1 h.2
    exact .inr ⟨d, h.1, h.2, hn, by simp [applyPpqn, hd, storeByte_ppqn]⟩
  · exact .inl ⟨h, by simp [applyPpqn, divisor_out_of_range h]⟩

theorem applyPulseWidth_next (k : PwCode) (s : State) :
    applyPulseWidth k s = .next ((s.setPwCode k).setNv nvPwOffset (pwByte k)
      (Memory.put nvPwOffset (pwByte k) s.nv)) := by
  simp [applyPulseWidth, reconfigure, storeByte_pw]

/-! ## RESET -/

theorem bootPpqn_cases {p : Byte} {q d : BitVec 5} (h : bootPpqn p = some (q, d)) :
    1 ≤ p.toNat ∧ p.toNat ≤ 24 ∧ q = p.setWidth 5 ∧ q.toNat = p.toNat ∧ d.toNat = 24 / p.toNat := by
  unfold bootPpqn at h
  split at h
  · next hp =>
    have hw : (p.setWidth 5).toNat = p.toNat := by simp [BitVec.toNat_setWidth]; omega
    cases hd : divisor (p.setWidth 5) with
    | none => simp [hd] at h
    | some d' =>
      have hc := divisor_cases hd
      rw [hw] at hc
      simp only [hd, Option.map_some, Option.some.injEq, Prod.mk.injEq] at h
      obtain ⟨rfl, rfl⟩ := h
      exact ⟨hc.1, hc.2.1, rfl, hw, hc.2.2⟩
  · simp at h

theorem bootPpqn_of_range {p : Byte} (h1 : 1 ≤ p.toNat) (h2 : p.toNat ≤ 24) :
    ∃ d, bootPpqn p = some (p.setWidth 5, d) ∧ d.toNat = 24 / p.toNat := by
  have hw : (p.setWidth 5).toNat = p.toNat := by simp [BitVec.toNat_setWidth]; omega
  obtain ⟨d, hd, hn⟩ := divisor_of_range (p := p.setWidth 5) (by omega) (by omega)
  exact ⟨d, by simp [bootPpqn, h2, hd], by rw [hn, hw]⟩

theorem bootWidth_cases {w : Byte} {k : PwCode} (h : bootWidth w = some k) : w = pwByte k := by
  unfold bootWidth at h
  split at h
  · next hw => cases k <;> simp_all [pwByte]
  · split at h
    · next hw => cases k <;> simp_all [pwByte]
    · simp at h

@[simp] theorem bootWidth_pwByte (k : PwCode) : bootWidth (pwByte k) = some k := by cases k <;> rfl

/-- The byte `RESET` works with for the key at `a`: the stored one, or the default where it is erased. -/
def effective (a : Nat) (dflt : Byte) (s : State) : Byte :=
  if Memory.get a s.nv = nvSentinel then dflt else Memory.get a s.nv

/-- The state after the key at `a` was read and, where it was erased, written with its default. -/
def repaired (a : Nat) (dflt : Byte) (s : State) : State :=
  if Memory.get a s.nv = nvSentinel then
    (s.noteRead a (Memory.get a s.nv)).setNv a dflt (Memory.put a dflt s.nv)
  else s.noteRead a (Memory.get a s.nv)

theorem bootKey_eq {a : Nat} (ha : offsetExists a = true) (dflt : Byte) (s : State) (k : Byte → State → Result) :
    bootKey a dflt s k = k (effective a dflt s) (repaired a dflt s) := by
  simp only [bootKey, readByte, ha, if_true, effective, repaired]
  split <;> simp [storeByte, ha]

theorem repaired_get_self {a : Nat} {s : State} (hw : Memory.wf s.nv = true) (dflt : Byte) :
    Memory.get a (repaired a dflt s).nv = effective a dflt s := by
  unfold repaired effective
  split
  · exact Memory.get_put_self hw a dflt
  · rfl

theorem repaired_get_other {a b : Nat} (hab : b ≠ a) (dflt : Byte) (s : State) :
    Memory.get b (repaired a dflt s).nv = Memory.get b s.nv := by
  unfold repaired
  split
  · exact Memory.get_put_other hab dflt s.nv
  · rfl

theorem repaired_wf {a : Nat} {s : State} (hw : Memory.wf s.nv = true) (ha : offsetExists a = true) (dflt : Byte) :
    Memory.wf (repaired a dflt s).nv = true := by
  unfold repaired
  split
  · exact Memory.wf_put hw ha dflt
  · exact hw

@[simp] theorem repaired_timebase (a : Nat) (dflt : Byte) (s : State) :
    (repaired a dflt s).timebase = s.timebase := by
  unfold repaired
  split <;> rfl

@[simp] theorem repaired_inputs (a : Nat) (dflt : Byte) (s : State) : (repaired a dflt s).inputs = s.inputs := by
  unfold repaired
  split <;> rfl

theorem effective_repaired_other {a b : Nat} (hab : b ≠ a) (da db : Byte) (s : State) :
    effective b db (repaired a da s) = effective b db s := by
  simp [effective, repaired_get_other hab]

/-- The store and the store port after `RESET` repaired both keys, the key `PPQN` first. -/
def booted (s : State) : State := repaired nvPwOffset pwDefault (repaired nvPpqnOffset ppqnDefault s)

/-- Everything `RESET` can do, in one equation. -/
theorem resetStep_eq (s : State) :
    resetStep s =
      match bootPpqn (effective nvPpqnOffset ppqnDefault s), bootWidth (effective nvPwOffset pwDefault s) with
      | some (q, d), some code => .next ((booted s).afterReset q d code)
      | _, _ => .refused .illegalStoreImage := by
  have h0 : offsetExists nvPpqnOffset = true := rfl
  have h1 : offsetExists nvPwOffset = true := rfl
  have hne : nvPwOffset ≠ nvPpqnOffset := by decide
  simp only [resetStep, bootKey_eq h0, bootKey_eq h1, effective_repaired_other hne, booted] <;> rfl

theorem resetStep_cases {s t : State} (h : resetStep s = .next t) :
    ∃ q d k, bootPpqn (effective nvPpqnOffset ppqnDefault s) = some (q, d) ∧
      bootWidth (effective nvPwOffset pwDefault s) = some k ∧ t = (booted s).afterReset q d k := by
  rw [resetStep_eq] at h
  split at h
  · next q d k hq hk => exact ⟨q, d, k, hq, hk, by simpa using h.symm⟩
  · simp at h

theorem booted_get_ppqn {s : State} (hw : Memory.wf s.nv = true) :
    Memory.get nvPpqnOffset (booted s).nv = effective nvPpqnOffset ppqnDefault s := by
  have hne : nvPpqnOffset ≠ nvPwOffset := by decide
  rw [booted, repaired_get_other hne, repaired_get_self hw]

theorem booted_get_pw {s : State} (hw : Memory.wf s.nv = true) :
    Memory.get nvPwOffset (booted s).nv = effective nvPwOffset pwDefault s := by
  have hne : nvPwOffset ≠ nvPpqnOffset := by decide
  rw [booted, repaired_get_self (repaired_wf hw rfl _), effective_repaired_other hne]

theorem booted_wf {s : State} (hw : Memory.wf s.nv = true) : Memory.wf (booted s).nv = true :=
  repaired_wf (repaired_wf hw rfl _) rfl _

end Sys2Proof.Machine
end

