-- ==== Sys2Proof/Laws/Exec.lean ====
section
/-! SUPPORT. One lemma for each instruction's meaning, for the two phases of a byte step and for the step: what it can
do, said once. -/

namespace Sys2Proof.Machine

/-! ## The meanings -/

@[simp] theorem exec_sox (s : State) : exec .sox s = .next (s.setSx .sawUniversalHeader) := rfl

theorem exec_clock_cases (m : Mode) (s : State) :
    (m = .low ∧ s.running = false ∧ exec (.clock m) s = .next s) ∨
    ((m = .high ∨ s.running = true) ∧ exec (.clock m) s = .next (countClock s)) := by
  cases m with
  | high => exact .inr ⟨.inl rfl, rfl⟩
  | low =>
    cases h : s.running with
    | false => exact .inl ⟨rfl, rfl, by simp [exec, execClock, clockCounted, h]⟩
    | true => exact .inr ⟨.inr rfl, by simp [exec, execClock, clockCounted, h]⟩

@[simp] theorem exec_start (s : State) :
    exec .start s = .next ((s.setRunning true).setClkCnt (startPreset s.div)) := rfl

@[simp] theorem exec_cont (s : State) : exec .cont s = .next (s.setRunning true) := rfl

@[simp] theorem exec_stop (s : State) : exec .stop s = .next (s.setRunning false) := rfl

@[simp] theorem exec_ign (b : Byte) (s : State) : exec (.ign b) s = .next s := rfl

@[simp] theorem exec_sxHdr (s : State) : exec .sxHdr s = .next (s.setSx .sawDeviceId) := rfl

@[simp] theorem exec_sxDevid (s : State) : exec .sxDevid s = .next (s.setSx .sawSubId1) := rfl

@[simp] theorem exec_sxSub1 (s : State) : exec .sxSub1 s = .next (s.setSx .sawSubId2) := rfl

@[simp] theorem exec_sxSub2 (s : State) : exec .sxSub2 s = .next (s.setSx .appliedChange) := rfl

@[simp] theorem exec_sxAbort (b : Byte) (s : State) : exec (.sxAbort b) s = .next (s.setSx .idle) := rfl

@[simp] theorem exec_sxEox (s : State) : exec .sxEox s = .next (s.setSx .idle) := rfl

@[simp] theorem exec_sxHold (b : Byte) (s : State) : exec (.sxHold b) s = .next s := rfl

theorem exec_setPpqn_cases (x : BitVec 1) (val : BitVec 5) (s : State) :
    (¬(1 ≤ val.toNat ∧ val.toNat ≤ 24) ∧ exec (.setPpqn x val) s = .next (s.setSx .awaitingTerminator)) ∨
    (∃ d, 1 ≤ val.toNat ∧ val.toNat ≤ 24 ∧ d.toNat = 24 / val.toNat ∧
      exec (.setPpqn x val) s =
        .next (((s.setSx .awaitingTerminator).setPpqn val d).setNv nvPpqnOffset (val.setWidth 8)
          (Memory.put nvPpqnOffset (val.setWidth 8) s.nv))) :=
  applyPpqn_cases val (endData s)

@[simp] theorem exec_setPw5ms (x : BitVec 1) (s : State) :
    exec (.setPw5ms x) s =
      .next (((s.setSx .awaitingTerminator).setPwCode .width5ms).setNv nvPwOffset 1#8 (Memory.put nvPwOffset 1#8 s.nv)) :=
  applyPulseWidth_next .width5ms (endData s)

@[simp] theorem exec_setPw15ms (x : BitVec 1) (s : State) :
    exec (.setPw15ms x) s =
      .next (((s.setSx .awaitingTerminator).setPwCode .width15ms).setNv nvPwOffset 2#8 (Memory.put nvPwOffset 2#8 s.nv)) :=
  applyPulseWidth_next .width15ms (endData s)

@[simp] theorem exec_dataNop (x : BitVec 1) (sel : BitVec 2) (val : BitVec 5) (s : State) :
    exec (.dataNop x sel val) s = .next (s.setSx .awaitingTerminator) := rfl

/-! ## The step -/

@[simp] theorem offer_none (s : State) : offer none s = .next s := rfl

@[simp] theorem offer_some (i : Instr) (s : State) : offer (some i) s = exec i s := rfl

theorem step_waiting {s : State} (h : s.inputs = []) : step s = .next (s.enterStep []) := by
  simp [step, takeStep, h]

theorem step_byte {s : State} {b : Byte} {m : Mode} {rest : List Input} (h : s.inputs = .byte b m :: rest) :
    step s = andThen (offer (decodeSysex s.sxState b) (s.enterStep rest)) (exec (decodeDispatch m b)) := by
  simp [step, takeStep, perform, h, byteStep, decode]

theorem step_tick {s : State} {rest : List Input} (h : s.inputs = .tick :: rest) :
    step s = .next (tick (s.enterStep rest)) := by
  simp [step, takeStep, perform, h]

theorem step_reset {s : State} {rest : List Input} (h : s.inputs = .reset :: rest) :
    step s = resetStep (s.enterStep rest) := by
  simp [step, takeStep, perform, h]

/-- Everything one step can do. -/
theorem step_cases {s t : State} (h : step s = .next t) :
    (s.inputs = [] ∧ t = s.enterStep []) ∨
    (∃ b m rest u, s.inputs = .byte b m :: rest ∧ offer (decodeSysex s.sxState b) (s.enterStep rest) = .next u ∧
      exec (decodeDispatch m b) u = .next t) ∨
    (∃ rest, s.inputs = .tick :: rest ∧ t = tick (s.enterStep rest)) ∨
    (∃ rest, s.inputs = .reset :: rest ∧ resetStep (s.enterStep rest) = .next t) := by
  match hi : s.inputs with
  | [] =>
    rw [step_waiting hi] at h
    exact .inl ⟨rfl, by simpa using h.symm⟩
  | .byte b m :: rest =>
    rw [step_byte hi] at h
    obtain ⟨u, hu, ht⟩ := andThen_cases h
    exact .inr (.inl ⟨b, m, rest, u, rfl, hu, ht⟩)
  | .tick :: rest =>
    rw [step_tick hi] at h
    exact .inr (.inr (.inl ⟨rest, rfl, by simpa using h.symm⟩))
  | .reset :: rest =>
    rw [step_reset hi] at h
    exact .inr (.inr (.inr ⟨rest, rfl, h⟩))

/-! ## The environment's side and runs -/

@[simp] theorem fire_env (s : State) : SameEnvironment s (fire s) := by
  rcases fire_cases s with ⟨-, h⟩ | ⟨-, h⟩ <;> simp [h, SameEnvironment]

@[simp] theorem tick_env (s : State) : SameEnvironment s (tick s) := by
  rcases tick_cases s with ⟨-, h⟩ | ⟨-, -, h⟩ | ⟨-, -, h⟩ <;> simp [h, SameEnvironment]

theorem countClock_env (s : State) : SameEnvironment s (countClock s) := by
  have := fire_env s
  rcases countClock_cases s with ⟨-, h⟩ | ⟨-, h⟩ <;> simp_all [SameEnvironment]

/-- No instruction touches the timebase parameter or the inputs still to come. -/
theorem exec_env {i : Instr} {s t : State} (h : exec i s = .next t) : SameEnvironment s t := by
  cases i with
  | clock m =>
    rcases exec_clock_cases m s with ⟨-, -, he⟩ | ⟨-, he⟩
    · rw [he] at h; cases h; exact ⟨rfl, rfl⟩
    · rw [he] at h; cases h; exact countClock_env s
  | setPpqn x val =>
    rcases exec_setPpqn_cases x val s with ⟨-, he⟩ | ⟨d, -, -, -, he⟩ <;> rw [he] at h <;> cases h <;> exact ⟨rfl, rfl⟩
  | setPw5ms x => rw [exec_setPw5ms] at h; cases h; exact ⟨rfl, rfl⟩
  | setPw15ms x => rw [exec_setPw15ms] at h; cases h; exact ⟨rfl, rfl⟩
  | sox | start | cont | stop | ign _ | sxHdr | sxDevid | sxSub1 | sxSub2 | sxAbort _ | sxEox | sxHold _
  | dataNop _ _ _ => cases h; exact ⟨rfl, rfl⟩

theorem offer_env {i : Option Instr} {s t : State} (h : offer i s = .next t) : SameEnvironment s t := by
  cases i with
  | none => cases h; exact ⟨rfl, rfl⟩
  | some i => exact exec_env h

/-- A step consumes the next input and leaves the timebase parameter as it is. -/
theorem step_env {s t : State} (h : step s = .next t) : t.timebase = s.timebase ∧ t.inputs = s.inputs.tail := by
  rcases step_cases h with ⟨hi, rfl⟩ | ⟨b, m, rest, u, hi, hu, ht⟩ | ⟨rest, hi, rfl⟩ | ⟨rest, hi, hr⟩
  · simp [hi]
  · have h1 := offer_env hu
    have h2 := exec_env ht
    simp_all [SameEnvironment]
  · have := tick_env (s.enterStep rest)
    simp_all [SameEnvironment]
  · obtain ⟨q, d, k, -, -, rfl⟩ := resetStep_cases hr
    simp [booted, hi]

@[simp] theorem runOn_nil (s : State) : runOn [] s = .next (s.feed []) := rfl

theorem feed_self {s : State} {es : List Input} (h : s.inputs = es) : s.feed es = s := by
  subst h
  rfl

/-- A run takes its first step, then runs on. -/
theorem runOn_cons (e : Input) (es : List Input) (s : State) :
    runOn (e :: es) s = andThen (step (s.feed (e :: es))) (runOn es) := by
  have hcore : Sys2Proof.core.step (s.feed (e :: es)) = step (s.feed (e :: es)) := rfl
  cases h : step (s.feed (e :: es)) with
  | next t =>
    have hin := (step_env h).2
    simp only [State.feed_inputs, List.tail_cons] at hin
    simp only [runOn, List.length_cons, Host.Core.run, hcore, h, andThen, feed_self hin]
    rfl
  | fault r =>
    simp only [runOn, List.length_cons, Host.Core.run, hcore, h, andThen]
    rfl
  | refused r =>
    simp only [runOn, List.length_cons, Host.Core.run, hcore, h, andThen]
    rfl

end Sys2Proof.Machine
end

