-- ==== Sys2Proof/Laws/PerInstr.lean ====
section
/-! SUPPORT. The per-instruction family of LAWS.json: the byte of every instruction matches the pattern of its row of
spec/opcode_table.json (30_encoding.md R56: "the row applies when `b & mask = match`"). -/

namespace Sys2Proof.Laws.MatchesRow

/-- The row of the opcode table with the instruction's mnemonic, and the instruction's byte under the row's mask is the
row's pattern. -/
def Statement (i : Instr) : Prop :=
  ∃ r ∈ opcodeTable, r.mnemonic = i.mnemonic ∧ r.format = i.format ∧ encode i &&& r.mask = r.pattern

/-- The row at position `n` of the table is the one. -/
theorem of_row {i : Instr} (n : Nat) (hn : n < opcodeTable.length) (hm : opcodeTable[n].mnemonic = i.mnemonic)
    (hf : opcodeTable[n].format = i.format) (he : encode i &&& opcodeTable[n].mask = opcodeTable[n].pattern) :
    Statement i :=
  ⟨opcodeTable[n], List.getElem_mem hn, hm, hf, he⟩

theorem sox : Statement .sox := of_row 0 (by decide) rfl rfl rfl
theorem clock (m : Mode) : Statement (.clock m) := of_row 1 (by decide) rfl rfl (by cases m <;> decide)
theorem start : Statement .start := of_row 2 (by decide) rfl rfl rfl
theorem cont : Statement .cont := of_row 3 (by decide) rfl rfl rfl
theorem stop : Statement .stop := of_row 4 (by decide) rfl rfl rfl
theorem ign (b : Byte) : Statement (.ign b) := of_row 5 (by decide) rfl rfl (BitVec.and_zero (x := b))
theorem sxHdr : Statement .sxHdr := of_row 6 (by decide) rfl rfl rfl
theorem sxDevid : Statement .sxDevid := of_row 7 (by decide) rfl rfl rfl
theorem sxSub1 : Statement .sxSub1 := of_row 8 (by decide) rfl rfl rfl
theorem sxSub2 : Statement .sxSub2 := of_row 9 (by decide) rfl rfl rfl
theorem sxAbort (b : Byte) : Statement (.sxAbort b) := of_row 10 (by decide) rfl rfl (BitVec.and_zero (x := b))
theorem sxEox : Statement .sxEox := of_row 11 (by decide) rfl rfl rfl
theorem sxHold (b : Byte) : Statement (.sxHold b) := of_row 12 (by decide) rfl rfl (BitVec.and_zero (x := b))
theorem setPpqn (x : BitVec 1) (val : BitVec 5) : Statement (.setPpqn x val) :=
  of_row 13 (by decide) rfl rfl (by revert x val; decide)
theorem setPw5ms (x : BitVec 1) : Statement (.setPw5ms x) := of_row 14 (by decide) rfl rfl (by revert x; decide)
theorem setPw15ms (x : BitVec 1) : Statement (.setPw15ms x) := of_row 15 (by decide) rfl rfl (by revert x; decide)
theorem dataNop (x : BitVec 1) (sel : BitVec 2) (val : BitVec 5) : Statement (.dataNop x sel val) :=
  of_row 16 (by decide) rfl rfl (BitVec.and_zero (x := encode (.dataNop x sel val)))

end Sys2Proof.Laws.MatchesRow
end

