-- ==== Sys2Proof/Laws/Ports.lean ====
section
/-! SUPPORT. The laws of the ports: what a step adds to the store port, that no step's effect on the registers depends on
what passed at the ports before, and what one clock cycle does. -/

namespace Sys2Proof.Machine

/-! ## The store port's write view -/

@[simp] theorem nvWrites_quiet : Ports.quiet.nvWrites = [] := rfl

@[simp] theorem nvWrites_write (p : Ports) (a : Nat) (v : Byte) :
    Ports.nvWrites { p with nvBus := p.nvBus ++ [.write a v] } = p.nvWrites ++ [(a, v)] := by
  simp [Ports.nvWrites, NvAccess.written?]

@[simp] theorem nvWrites_read (p : Ports) (a : Nat) (v : Byte) :
    Ports.nvWrites { p with nvBus := p.nvBus ++ [.read a v] } = p.nvWrites := by
  simp [Ports.nvWrites, NvAccess.written?]

/-! ## What an operation adds to the ports -/

@[simp] theorem fire_nvBus (s : State) : (fire s).ports.nvBus = s.ports.nvBus := by
  rcases fire_cases s with ⟨-, h⟩ | ⟨-, h⟩ <;> simp [h]

@[simp] theorem tick_ports (s : State) : (tick s).ports = s.ports := by
  rcases tick_cases s with ⟨-, h⟩ | ⟨-, -, h⟩ | ⟨-, -, h⟩ <;> simp [h]

@[simp] theorem countClock_nvBus (s : State) : (countClock s).ports.nvBus = s.ports.nvBus := by
  rcases countClock_cases s with ⟨-, h⟩ | ⟨-, h⟩ <;> simp [h]

/-- A dispatcher operation does not access the store. -/
theorem exec_dispatcher_nvBus {i : Instr} {s t : State} (hf : i.format = .D) (h : exec i s = .next t) :
    t.ports.nvBus = s.ports.nvBus := by
  cases i with
  | clock m =>
    rcases exec_clock_cases m s with ⟨-, -, he⟩ | ⟨-, he⟩ <;> rw [he] at h <;> cases h
    · rfl
    · exact countClock_nvBus s
  | sox | start | cont | stop | ign _ => cases h; rfl
  | sxHdr | sxDevid | sxSub1 | sxSub2 | sxAbort _ | sxEox | sxHold _ | setPpqn _ _ | setPw5ms _ | setPw15ms _
  | dataNop _ _ _ => simp [Instr.format] at hf

theorem decodeDispatch_format (m : Mode) (b : Byte) : (decodeDispatch m b).format = .D := by
  unfold decodeDispatch
  split_ifs <;> rfl

/-- `RESET` drives no `pg_start`: it leaves the strobe as it was when the step began. -/
@[simp] theorem booted_pgStart (s : State) : (booted s).ports.pgStart = s.ports.pgStart := by
  unfold booted repaired
  split <;> split <;> rfl

/-! ## The ports feed back nowhere

Two states that differ at most in what passed at the ports and in the inputs still to come (`SameBlock`) are the same for
every operation. -/

/-- The registers, the store and the timebase parameter of `s` and `u` are the same. -/
def SameBlock (s u : State) : Prop := u = { s with inputs := u.inputs, ports := u.ports }

theorem SameBlock.refl (s : State) : SameBlock s s := rfl

theorem SameBlock.cases {s u : State} (h : SameBlock s u) : ∃ l p, u = { s with inputs := l, ports := p } := ⟨_, _, h⟩

theorem SameBlock.symm {s u : State} (h : SameBlock s u) : SameBlock u s := by
  rw [SameBlock, h]

theorem SameBlock.trans {s u v : State} (h : SameBlock s u) (k : SameBlock u v) : SameBlock s v := by
  rw [SameBlock, k, h]

theorem SameBlock.enterStep (s : State) (l : List Input) : SameBlock s (s.enterStep l) := rfl

theorem SameBlock.feed (s : State) (l : List Input) : SameBlock s (s.feed l) := rfl

/-- `f` takes states of the same block to outcomes of the same block. -/
def KeepsBlock (f : State → Result) : Prop :=
  ∀ s u s', SameBlock s u → f s = .next s' → ∃ u', f u = .next u' ∧ SameBlock s' u'

theorem fire_sameBlock {s u : State} (h : SameBlock s u) : SameBlock (fire s) (fire u) := by
  have he : u.cdEn = s.cdEn := by rw [h]
  rcases fire_cases s with ⟨hs, h1⟩ | ⟨hs, h1⟩
  · rw [h1, fire_busy (he.trans hs)]
    exact h
  · rw [h1, fire_idle (he.trans hs), h]
    rfl

theorem countClock_sameBlock {s u : State} (h : SameBlock s u) : SameBlock (countClock s) (countClock u) := by
  have hd : u.div = s.div := by rw [h]
  have hc : u.clkCnt = s.clkCnt := by rw [h]
  simp only [countClock, hd, hc]
  split
  · have hf := fire_sameBlock h
    rw [SameBlock] at hf ⊢
    rw [hf]
    rfl
  · rw [h]
    rfl

theorem tick_sameBlock {s u : State} (h : SameBlock s u) : SameBlock (tick s) (tick u) := by
  obtain ⟨l, p, rfl⟩ := h.cases
  simp only [tick, State.setCdCnt_cdCnt]
  split
  · by_cases hx : countdownExpired (countDown s.cdCnt) = true <;> simp only [hx, if_true] <;> rfl
  · rfl

theorem storeByte_keepsBlock (a : Nat) (v : Byte) : KeepsBlock (storeByte a v) := by
  intro s u s' h hs
  obtain ⟨ha, rfl⟩ := storeByte_cases hs
  obtain ⟨l, p, rfl⟩ := h.cases
  exact ⟨_, if_pos ha, rfl⟩

theorem applyPpqn_keepsBlock (val : BitVec 5) : KeepsBlock (applyPpqn val) := by
  intro s u s' h hs
  obtain ⟨l, p, rfl⟩ := h.cases
  rcases applyPpqn_cases val s with ⟨hv, he⟩ | ⟨d, h1, h2, -, -⟩
  · rw [he] at hs
    cases hs
    exact ⟨_, by simp only [applyPpqn, divisor_out_of_range hv], h⟩
  · obtain ⟨d', hd, -⟩ := divisor_of_range h1 h2
    simp only [applyPpqn, hd] at hs ⊢
    exact storeByte_keepsBlock _ _ (s.setPpqn val d') _ s' rfl hs

theorem exec_keepsBlock (i : Instr) : KeepsBlock (exec i) := by
  intro s u s' h hs
  cases i with
  | clock m =>
    have hr : u.running = s.running := by rw [h]
    simp only [exec, execClock, hr] at hs ⊢
    split at hs <;> cases hs
    · exact ⟨_, by simp_all, countClock_sameBlock h⟩
    · exact ⟨_, by simp_all, h⟩
  | setPpqn x val =>
    obtain ⟨l, p, rfl⟩ := h.cases
    exact applyPpqn_keepsBlock val (endData s) _ s' rfl hs
  | setPw5ms x =>
    obtain ⟨l, p, rfl⟩ := h.cases
    exact storeByte_keepsBlock nvPwOffset _ (reconfigure .width5ms (endData s)) _ s' rfl hs
  | setPw15ms x =>
    obtain ⟨l, p, rfl⟩ := h.cases
    exact storeByte_keepsBlock nvPwOffset _ (reconfigure .width15ms (endData s)) _ s' rfl hs
  | sox | start | cont | stop | ign _ | sxHdr | sxDevid | sxSub1 | sxSub2 | sxAbort _ | sxEox | sxHold _
  | dataNop _ _ _ =>
    obtain ⟨l, p, rfl⟩ := h.cases
    cases hs
    exact ⟨_, rfl, rfl⟩

theorem repaired_sameBlock {s u : State} (a : Nat) (dflt : Byte) (h : SameBlock s u) :
    SameBlock (repaired a dflt s) (repaired a dflt u) := by
  have hn : u.nv = s.nv := by rw [h]
  simp only [repaired, hn]
  split <;> (rw [h]; rfl)

theorem resetStep_keepsBlock : KeepsBlock resetStep := by
  intro s u s' h hs
  obtain ⟨q, d, k, hq, hk, rfl⟩ := resetStep_cases hs
  have hn : u.nv = s.nv := by rw [h]
  have he : ∀ a v, effective a v u = effective a v s := fun a v => by simp only [effective, hn]
  have hb : SameBlock (booted s) (booted u) := repaired_sameBlock _ _ (repaired_sameBlock _ _ h)
  refine ⟨_, by rw [resetStep_eq, he, he, hq, hk], ?_⟩
  rw [SameBlock] at hb ⊢
  rw [hb]
  rfl

theorem byteStep_keepsBlock (b : Byte) (m : Mode) : KeepsBlock (byteStep b m) := by
  intro s u s' h hs
  have hx : u.sxState = s.sxState := by rw [h]
  obtain ⟨v, hv, hs⟩ := andThen_cases hs
  have hoff : ∃ w, offer (decodeSysex s.sxState b) u = .next w ∧ SameBlock v w := by
    cases hd : decodeSysex s.sxState b with
    | none => simp only [decode, hd, offer_none, Host.Outcome.next.injEq] at hv; subst hv; exact ⟨u, rfl, h⟩
    | some i => exact exec_keepsBlock i s u v h (by simpa only [decode, hd, offer_some] using hv)
  obtain ⟨w, hw, hvw⟩ := hoff
  obtain ⟨u', hu', hb⟩ := exec_keepsBlock _ v w s' hvw hs
  exact ⟨u', by simp only [byteStep, decode, hx, hw, andThen_next]; exact hu', hb⟩

theorem perform_keepsBlock (e : Input) : KeepsBlock (perform e) := by
  cases e with
  | byte b m => exact byteStep_keepsBlock b m
  | tick => intro s u s' h hs; cases hs; exact ⟨_, rfl, tick_sameBlock h⟩
  | reset => exact resetStep_keepsBlock

/-! ## One clock cycle -/

@[simp] theorem performAll_nil (s : State) : performAll [] s = .next s := rfl

@[simp] theorem performAll_cons (e : Input) (es : List Input) (s : State) :
    performAll (e :: es) s = andThen (perform e s) (performAll es) := rfl

theorem performAll_append (es fs : List Input) (s : State) :
    performAll (es ++ fs) s = andThen (performAll es s) (performAll fs) := by
  induction es generalizing s with
  | nil => rfl
  | cons e es ih =>
    simp only [List.cons_append, performAll_cons]
    cases perform e s with
    | next t => exact ih t
    | fault r => rfl
    | refused r => rfl

theorem perform_inputs {e : Input} {s t : State} (h : perform e s = .next t) : t.inputs = s.inputs := by
  cases e with
  | byte b m =>
    obtain ⟨u, hu, ht⟩ := andThen_cases h
    exact (exec_env ht).2.trans (offer_env hu).2
  | tick => cases h; exact (tick_env s).2
  | reset =>
    obtain ⟨q, d, k, -, -, rfl⟩ := resetStep_cases h
    simp [booted]

theorem performAll_inputs {es : List Input} {s t : State} (h : performAll es s = .next t) : t.inputs = s.inputs := by
  induction es generalizing s with
  | nil => cases h; rfl
  | cons e es ih =>
    obtain ⟨u, hu, ht⟩ := andThen_cases h
    exact (ih ht).trans (perform_inputs hu)

theorem step_perform (e : Input) (es : List Input) (s : State) :
    step (s.feed (e :: es)) = perform e (s.enterStep es) := rfl

/-- A run over a schedule and the same steps performed within one cycle leave the same block. -/
theorem performAll_of_runOn {es : List Input} {s s₀ u : State} (h : SameBlock s₀ s) (hr : runOn es s₀ = .next u) :
    ∃ t, performAll es s = .next t ∧ SameBlock u t := by
  induction es generalizing s s₀ with
  | nil => cases hr; exact ⟨s, rfl, (SameBlock.feed s₀ []).symm.trans h⟩
  | cons e es ih =>
    rw [runOn_cons, step_perform] at hr
    obtain ⟨v, hv, hu⟩ := andThen_cases hr
    obtain ⟨w, hw, hvw⟩ := perform_keepsBlock e _ s v ((SameBlock.enterStep s₀ es).symm.trans h) hv
    obtain ⟨t, ht, hut⟩ := ih hvw hu
    exact ⟨t, by rw [performAll_cons, hw, andThen_next, ht], hut⟩

theorem portCycle_idle (b : Byte) (m : Mode) (s : State) :
    portCycle { rst := false, tick := false, rxValid := false, rxData := b, modeSel := m } s =
      .next (s.enterStep s.inputs) := rfl

/-- The byte of a cycle comes last: after what the same cycle without it does. -/
theorem portCycle_byte (rst tick : Bool) (b : Byte) (m : Mode) (s : State) :
    portCycle { rst := rst, tick := tick, rxValid := true, rxData := b, modeSel := m } s =
      andThen (portCycle { rst := rst, tick := tick, rxValid := false, rxData := b, modeSel := m } s) (byteStep b m) := by
  simp only [portCycle, cycleSteps, Bool.false_eq_true, if_true, if_false, List.append_nil, performAll_append]
  congr 1
  funext t
  simp only [performAll_cons, perform]
  cases byteStep b m t <;> rfl

theorem portCycle_inputs {c : PortCycle} {s t : State} (h : portCycle c s = .next t) : t.inputs = s.inputs := by
  simpa using performAll_inputs (s := s.enterStep s.inputs) h

end Sys2Proof.Machine
end

