-- ==== Sys2Proof/Tests/Slice0.lean ====
section
/-! SUPPORT. The model's own tests: well-formedness smoke tests, words written out bit by bit from the spec's encodings,
single steps from the vectors of 95_test_vectors.md (named in each docstring; timebase `T5 = 5`, as there), and a witness
for the hypotheses of every statement that has any. -/

namespace Sys2Proof.Tests

open Sys2Proof.Machine

/-! ## Helpers -/

/-- A state in the tuple order of 95_test_vectors.md section 0; a countdown of `cd` ticks is in progress if `cd` is not 0. -/
def st (ppqn div : BitVec 5) (pw : PwCode) (cnt : BitVec 5) (run : Bool) (sx : SxState) (cd : Nat) (nv : Memory)
    (ins : List Input) : State :=
  { ppqn := ppqn, pwCode := pw, div := div, clkCnt := cnt, running := run, sxState := sx, out := cd != 0,
    cdEn := cd != 0, cdCnt := cd, nv := nv, timebase := { t5Pred := 4 }, inputs := ins, ports := Ports.quiet }

/-- The default configuration (`02 01`), idle line. -/
def dflt (cnt : BitVec 5) (run : Bool) (sx : SxState) (ins : List Input) : State :=
  st 2 12 .width5ms cnt run sx 0 [(0, 2), (1, 1)] ins

/-- The start state of the X3 vectors: PPQN 6, parser in `AppliedChange`. -/
def x3 (c : Byte) : State := st 6 4 .width5ms 2 true .appliedChange 0 [(0, 6), (1, 1)] [.byte c .high]

/-- The value of `f` on the next state, if there is one. -/
def after {α : Type} (f : State → α) (r : Result) : Option α :=
  match r with
  | .next s => some (f s)
  | _ => none

/-! ## Well-formedness refuses ill-formed terms -/

theorem test_wf_clock_level : Instr.wellFormedIn ⟨.idle, .low⟩ (.clock .high) = false := by decide
theorem test_wf_ign_opcode : Instr.wellFormedIn ⟨.idle, .low⟩ (.ign 0xF8) = false := by decide
theorem test_wf_header_contexts :
    (Instr.wellFormedIn ⟨.idle, .low⟩ .sxHdr || Instr.wellFormedIn ⟨.sawSubId1, .low⟩ .sxDevid ||
      Instr.wellFormedIn ⟨.sawSubId2, .low⟩ .sxSub1 || Instr.wellFormedIn ⟨.sawSubId1, .low⟩ .sxSub2) = false := by decide
theorem test_wf_abort_constant : Instr.wellFormedIn ⟨.sawDeviceId, .low⟩ (.sxAbort 0x49) = false := by decide
theorem test_wf_abort_context : Instr.wellFormedIn ⟨.appliedChange, .low⟩ (.sxAbort 0x00) = false := by decide
theorem test_wf_eox_context : Instr.wellFormedIn ⟨.appliedChange, .low⟩ .sxEox = false := by decide
theorem test_wf_hold_terminator : Instr.wellFormedIn ⟨.awaitingTerminator, .low⟩ (.sxHold 0xF7) = false := by decide
theorem test_wf_hold_context : Instr.wellFormedIn ⟨.idle, .low⟩ (.sxHold 0x00) = false := by decide
theorem test_wf_ppqn_zero : Instr.wellFormedIn ⟨.appliedChange, .low⟩ (.setPpqn 0 0) = false := by decide
theorem test_wf_ppqn_25 : Instr.wellFormedIn ⟨.appliedChange, .low⟩ (.setPpqn 0 25) = false := by decide
theorem test_wf_data_contexts :
    (Instr.wellFormedIn ⟨.idle, .low⟩ (.setPpqn 0 4) || Instr.wellFormedIn ⟨.idle, .low⟩ (.setPw5ms 0) ||
      Instr.wellFormedIn ⟨.idle, .low⟩ (.setPw15ms 0) || Instr.wellFormedIn ⟨.idle, .low⟩ (.dataNop 0 3 31)) = false := by
  decide
theorem test_wf_nop_ppqn_shape : Instr.wellFormedIn ⟨.appliedChange, .low⟩ (.dataNop 0 0 24) = false := by decide
theorem test_wf_nop_pw_shape : Instr.wellFormedIn ⟨.appliedChange, .low⟩ (.dataNop 1 2 31) = false := by decide

/-! ## Decoding, words bit by bit (30_encoding.md sections 2 to 4; opcode_table.json, column "encoding") -/

theorem test_decode_dispatcher :
    decodeDispatch .low 0b11110000#8 = .sox ∧ decodeDispatch .low 0b11111000#8 = .clock .low ∧
    decodeDispatch .low 0b11111010#8 = .start ∧ decodeDispatch .low 0b11111011#8 = .cont ∧
    decodeDispatch .low 0b11111100#8 = .stop ∧ decodeDispatch .low 0b11111110#8 = .ign 0xFE := by decide
theorem test_decode_sysex :
    decodeSysex .sawUniversalHeader 0b01111110#8 = some .sxHdr ∧ decodeSysex .sawDeviceId 0b01001001#8 = some .sxDevid ∧
    decodeSysex .sawSubId1 0b00001011#8 = some .sxSub1 ∧ decodeSysex .sawSubId2 0b00000010#8 = some .sxSub2 ∧
    decodeSysex .sawSubId1 0b00000010#8 = some (.sxAbort 0x02) ∧
    decodeSysex .awaitingTerminator 0b11110111#8 = some .sxEox ∧
    decodeSysex .awaitingTerminator 0b00000100#8 = some (.sxHold 0x04) := by decide
theorem test_decode_data :
    decodeSysex .appliedChange 0b10011000#8 = some (.setPpqn 1 24) ∧
    decodeSysex .appliedChange 0b10111111#8 = some (.setPw5ms 1) ∧
    decodeSysex .appliedChange 0b01011111#8 = some (.setPw15ms 0) ∧
    decodeSysex .appliedChange 0b01000011#8 = some (.dataNop 0 2 3) := by decide
/-- 30_encoding.md R50: 48, 4 and 204 byte values. -/
theorem test_decode_data_counts :
    let ms := (List.range 256).map fun n => (decodeData (BitVec.ofNat 8 n)).mnemonic
    ms.count "SET_PPQN" = 48 ∧ ms.count "SET_PW.5MS" + ms.count "SET_PW.15MS" = 4 ∧ ms.count "DATA_NOP" = 204 := by
  decide +kernel
theorem test_table_word : decodeTableWord 8 0x49 = some .sxDevid ∧ decodeTableWord 8 0xF8 = some (.clock .high) := by decide
/-- 30_encoding.md R55: `SETPPQN 4`, `SETPW 5` and `SETPW 15` written out. -/
theorem test_pseudo_instructions :
    setPpqnCommand 4 = [0xF0, 0x7E, 0x49, 0x0B, 0x02, 0x04, 0xF7] ∧ setPw5Command = [0xF0, 0x7E, 0x49, 0x0B, 0x02, 0x3F, 0xF7] ∧
    setPw15Command = [0xF0, 0x7E, 0x49, 0x0B, 0x02, 0x5F, 0xF7] := by decide

/-! ## Single steps from 95_test_vectors.md -/

/-- D1f: `F0` in the data slot. -/
theorem test_sox_in_data_slot :
    after (fun t => (t.sxState, t.ppqn)) (step (dflt 0 false .appliedChange [.byte 0xF0 .low])) =
      some (.sawUniversalHeader, 2) := by decide
/-- D2. -/
theorem test_clock_fires :
    after (fun t => (t.clkCnt, t.out, t.cdCnt)) (step (dflt 11 false .idle [.byte 0xF8 .high])) = some (0, true, 5) := by
  decide
/-- D12, the last step: the counter is above the divisor. -/
theorem test_clock_above_divisor :
    after (fun t => (t.clkCnt, t.cdCnt)) (step (st 4 6 .width5ms 20 true .idle 0 [(0, 4), (1, 1)] [.byte 0xF8 .high])) =
      some (0, 5) := by decide
/-- D16: START and SX_ABORT in one step. -/
theorem test_start_in_header :
    after (fun t => (t.clkCnt, t.running, t.sxState)) (step (dflt 0 false .sawSubId2 [.byte 0xFA .low])) =
      some (11, true, .idle) := by decide
/-- D9. -/
theorem test_continue : after (fun t => (t.clkCnt, t.running)) (step (dflt 7 false .idle [.byte 0xFB .low])) =
    some (7, true) := by decide
/-- D10. -/
theorem test_stop_keeps_pulse :
    after (fun t => (t.running, t.cdCnt)) (step (st 2 12 .width5ms 3 true .idle 4 [(0, 2), (1, 1)] [.byte 0xFC .low])) =
      some (false, 4) := by decide
/-- D11e: `FF` on the wire is no reset. -/
theorem test_ign_ff : after (fun t => (t.clkCnt, t.running)) (step (dflt 3 true .idle [.byte 0xFF .high])) =
    some (3, true) := by decide
/-- X1a to X1d. -/
theorem test_hdr : after State.sxState (step (dflt 0 false .sawUniversalHeader [.byte 0x7E .low])) = some .sawDeviceId := by
  decide
theorem test_devid : after State.sxState (step (dflt 0 false .sawDeviceId [.byte 0x49 .low])) = some .sawSubId1 := by
  decide
theorem test_sub1 : after State.sxState (step (dflt 0 false .sawSubId1 [.byte 0x0B .low])) = some .sawSubId2 := by decide
theorem test_sub2 : after State.sxState (step (dflt 0 false .sawSubId2 [.byte 0x02 .low])) = some .appliedChange := by
  decide
/-- X2h. -/
theorem test_abort : after State.sxState (step (dflt 0 false .sawSubId1 [.byte 0x02 .low])) = some .idle := by decide
/-- X4.F7, X4.F8. -/
theorem test_eox : after State.sxState (step (dflt 2 true .awaitingTerminator [.byte 0xF7 .high])) = some .idle := by
  decide
theorem test_hold_counts :
    after (fun t => (t.sxState, t.clkCnt)) (step (dflt 2 true .awaitingTerminator [.byte 0xF8 .high])) =
      some (.awaitingTerminator, 3) := by decide
/-- X3.98: PPQN 24 with bit 7 set. -/
theorem test_set_ppqn_24 : after (fun t => (t.ppqn, t.div, t.nv)) (step (x3 0x98)) = some (24, 1, [(0, 0x18), (1, 1)]) := by
  decide
/-- X11: an unchanged value is still written. -/
theorem test_set_ppqn_unchanged :
    after (fun t => (t.nv, t.ports.nvWrites)) (step (dflt 0 false .appliedChange [.byte 0x02 .low])) =
      some ([(0, 2), (1, 1)], [(0, 2)]) := by decide
/-- X3.BF. -/
theorem test_set_pw5 :
    after (fun t => (t.pwCode, t.nv))
      (step (st 6 4 .width15ms 2 true .appliedChange 0 [(0, 6), (1, 2)] [.byte 0xBF .high])) =
      some (.width5ms, [(0, 6), (1, 1)]) := by decide
/-- X3.DF. -/
theorem test_set_pw15 : after (fun t => (t.pwCode, t.nv)) (step (x3 0xDF)) = some (.width15ms, [(0, 6), (1, 2)]) := by
  decide
/-- X3.F7 and X3.1F. -/
theorem test_data_nop_f7 : after (fun t => (t.sxState, t.nv)) (step (x3 0xF7)) =
    some (.awaitingTerminator, [(0, 6), (1, 1)]) := by decide
theorem test_data_nop_1f : after (fun t => (t.ppqn, t.pwCode)) (step (x3 0x1F)) = some (6, .width5ms) := by decide
/-- P3, the last tick; P6. -/
theorem test_tick_expires :
    after (fun t => (t.out, t.cdEn, t.cdCnt)) (step (st 2 12 .width5ms 0 false .idle 1 [(0, 2), (1, 1)] [.tick])) =
      some (false, false, 0) := by decide
theorem test_tick_idle : after (fun t => (t.out, t.cdCnt)) (step (dflt 0 false .idle [.tick])) = some (false, 0) := by
  decide
/-- Z.06FF: the keys are independent. -/
theorem test_reset_06ff :
    after (fun t => (t.ppqn, t.nv, t.ports.nvWrites))
      (step (st 3 8 .width5ms 5 true .sawSubId1 2 [(0, 6)] [.reset])) = some (6, [(0, 6), (1, 1)], [(1, 1)]) := by decide

/-! ## Witnesses: the hypotheses of each statement hold together somewhere, for each clause at a boundary -/

theorem test_witness_DispatcherComparesFiveConstants :
    NotOpcode 0xEF ∧ NotOpcode 0xF1 ∧ NotOpcode 0xF7 ∧ NotOpcode 0xF9 ∧ NotOpcode 0xFD ∧ NotOpcode 0xFF := by
  unfold NotOpcode; decide
theorem test_witness_SysexPathFollowsItsTable :
    (0x7F : Byte) ≠ 0x7E ∧ (0x48 : Byte) ≠ 0x49 ∧ (0x0A : Byte) ≠ 0x0B ∧ (0x03 : Byte) ≠ 0x02 ∧ (0xF6 : Byte) ≠ 0xF7 ∧
    (dflt 0 false .idle []).sxState = .idle ∧ (0xF1 : Byte) ≠ 0xF0 ∧ (0xEF : Byte) ≠ 0xF0 := by decide
/-- PPQN 1 and 24; 5 ms; 15 ms; then PPQN 0 and 25, the reserved and the zero selector. -/
theorem test_witness_DataByteClasses :
    (0x01 / 32 % 4 = 0 ∧ 1 ≤ 0x01 % 32) ∧ (0x98 / 32 % 4 = 0 ∧ 0x98 % 32 ≤ 24) ∧ (0x3F % 32 = 31 ∧ 0x3F / 32 % 4 = 1) ∧
    (0xDF % 32 = 31 ∧ 0xDF / 32 % 4 = 2) ∧ ¬(1 ≤ 0x80 % 32) ∧ ¬(0x19 % 32 ≤ 24) ∧ ¬(0x7F / 32 % 4 = 1 ∨ 0x7F / 32 % 4 = 2) ∧
    ¬(0x1F / 32 % 4 = 1 ∨ 0x1F / 32 % 4 = 2) ∧ ¬(0x1F % 32 ≤ 24) := by decide
theorem test_witness_DispatcherDecodeOfEncode :
    (Instr.clock .low).format = .D ∧ (Instr.clock .low).wellFormedIn ⟨.idle, .low⟩ = true ∧
    (Instr.ign 0xF7).wellFormedIn ⟨.appliedChange, .high⟩ = true := by decide
theorem test_witness_SysexDecodeOfEncode :
    (Instr.setPpqn 1 24).format ≠ .D ∧ (Instr.setPpqn 1 24).wellFormedIn ⟨.appliedChange, .low⟩ = true ∧
    (Instr.dataNop 0 0 25).wellFormedIn ⟨.appliedChange, .low⟩ = true ∧
    (Instr.sxAbort 0x7E).wellFormedIn ⟨.sawDeviceId, .low⟩ = true := by decide
theorem test_witness_EveryByteDecodesWellFormed : (decode ⟨.sawDeviceId, .low⟩ 0x49).sysex = some .sxDevid := by decide
theorem test_witness_AcceptedDataIsNoDispatcherOpcode : ∀ x sel val, decodeData 0x98 ≠ .dataNop x sel val := by
  intro x sel val h
  have h2 : decodeData 0x98 = .setPpqn 1 24 := by decide
  rw [h2] at h
  cases h
theorem test_witness_StepRunsDecodedByte :
    (dflt 0 false .idle [.byte 0xF8 .low]).inputs = [.byte 0xF8 .low] ∧ (dflt 0 false .idle [.byte 0xF8 .low]).sxState = .idle ∧
    decodeSysex .sawDeviceId 0x49 = some .sxDevid ∧ Instr.wellFormedIn ⟨.sawDeviceId, .low⟩ .sxDevid = true ∧
    ∃ u, exec .sxDevid (dflt 0 false .sawDeviceId []) = .next u := ⟨rfl, rfl, rfl, rfl, _, rfl⟩
theorem test_witness_NextInputSelectsStep :
    (dflt 0 false .idle []).inputs = [] ∧ (dflt 0 false .idle [.tick]).inputs = [.tick] ∧
    (dflt 0 false .idle [.reset]).inputs = [.reset] := by decide
theorem test_witness_NoByteOrTickStops : ∀ rest, (dflt 0 false .idle [.tick]).inputs ≠ .reset :: rest := by
  intro rest h
  cases h
theorem test_witness_PlacedWordRunsFirst : 0 < 256 ∧ 255 < 256 := by decide
theorem test_witness_SoxStartsSequence :
    (dflt 0 false .appliedChange [.byte 0xF0 .low]).inputs = [.byte 0xF0 .low] := rfl
/-- Stopped; counting below the divisor; at and above it, with and without a pulse in progress. -/
theorem test_witness_ClockCountsAndFires :
    (dflt 11 false .idle []).running = false ∧ (dflt 10 true .idle []).clkCnt.toNat + 1 < (dflt 10 true .idle []).div.toNat ∧
    (dflt 11 true .idle []).div.toNat ≤ (dflt 11 true .idle []).clkCnt.toNat + 1 ∧ (dflt 11 true .idle []).cdEn = false ∧
    (dflt 23 true .idle []).div.toNat ≤ (dflt 23 true .idle []).clkCnt.toNat + 1 ∧
    (st 2 12 .width5ms 11 true .idle 3 [] []).cdEn = true := by decide
theorem test_witness_StartPresetsCounter : 1 ≤ (st 24 1 .width5ms 0 false .idle 0 [] []).div.toNat := by decide
theorem test_witness_StopKeepsCounterAndPulse : ∃ u, exec (.clock .high) (dflt 3 true .idle []) = .next u := ⟨_, rfl⟩
theorem test_witness_OtherBytesAreIgnored :
    (dflt 3 true .idle [.byte 0xF7 .low]).sxState = .idle ∧ NotOpcode 0xF7 ∧
    (dflt 3 true .idle [.byte 0xF7 .low]).inputs = [.byte 0xF7 .low] := by
  unfold NotOpcode; decide
/-- Each clause's operation runs somewhere. -/
theorem test_witness_DispatcherOpsFrame :
    Instr.format .sox = .D ∧ (∃ t, exec .sox (dflt 3 true .idle []) = .next t) ∧
    (∃ t, exec (.clock .low) (dflt 11 true .idle []) = .next t) ∧ (∃ t, exec .start (dflt 3 true .idle []) = .next t) ∧
    (∀ m, Instr.stop ≠ .clock m) ∧ Instr.stop ≠ .start ∧ ∃ t, exec .stop (dflt 3 true .idle []) = .next t :=
  ⟨rfl, ⟨_, rfl⟩, ⟨_, rfl⟩, ⟨_, rfl⟩, (by intro m h; cases h), by decide, _, rfl⟩
theorem test_witness_OnlyTheDeviceIdAdvances : (0x7F : Byte) ≠ 0x49 := by decide
theorem test_witness_HeaderMismatchAborts :
    (dflt 0 false .sawSubId1 [.byte 0x0C .low]).sxState.headerByte? = some 0x0B ∧ (0x0C : Byte) ≠ 0x0B ∧
    (dflt 0 false .sawSubId1 [.byte 0x0C .low]).inputs = [.byte 0x0C .low] := by decide
theorem test_witness_TerminatorReturnsToIdle : SxState.headerByte? .sawSubId2 = some 0x02 := by decide
theorem test_witness_OtherBytesAreHeldOut :
    (dflt 0 false .awaitingTerminator [.byte 0xF8 .low]).sxState = .awaitingTerminator ∧ (0xF8 : Byte) ≠ 0xF7 ∧
    (dflt 0 false .awaitingTerminator [.byte 0xF8 .low]).inputs = [.byte 0xF8 .low] := by decide
theorem test_witness_ParserLockedOutUntilTerminatorOrSox :
    (dflt 0 false .awaitingTerminator []).sxState = .awaitingTerminator ∧
    ∀ e ∈ [Input.tick, .byte 0xF8 .low, .byte 0x04 .high], e = .tick ∨ ∃ b m, e = .byte b m ∧ b ≠ 0xF7 ∧ b ≠ 0xF0 := by
  refine ⟨rfl, fun e he => ?_⟩
  simp only [List.mem_cons, List.not_mem_nil, or_false] at he
  rcases he with rfl | rfl | rfl
  · exact .inl rfl
  · exact .inr ⟨_, _, rfl, by decide⟩
  · exact .inr ⟨_, _, rfl, by decide⟩
theorem test_witness_IdleIsLeftBySoxOnly :
    (dflt 0 false .idle [.byte 0xF7 .low]).sxState = .idle ∧ (0xF7 : Byte) ≠ 0xF0 ∧
    (dflt 0 false .idle [.byte 0xF7 .low]).inputs = [.byte 0xF7 .low] := by decide
theorem test_witness_ParserFollowsNetTable : (x3 0xF7).inputs = [.byte 0xF7 .high] := rfl
theorem test_witness_RealTimeBytesActOnBothPaths : (x3 0xFC).inputs = [.byte 0xFC .high] := rfl
theorem test_witness_SysexOpsFrame :
    Instr.format (.sxHold 0x04) = .S ∧ ∃ t, exec (.sxHold 0x04) (dflt 0 false .awaitingTerminator []) = .next t :=
  ⟨rfl, _, rfl⟩
/-- The range's ends, inside and outside. -/
theorem test_witness_SetPpqnApplies :
    Memory.wf (x3 0x01).nv = true ∧ (1 ≤ (1 : BitVec 5).toNat ∧ (24 : BitVec 5).toNat ≤ 24) ∧
    ¬(1 ≤ (0 : BitVec 5).toNat) ∧ ¬((25 : BitVec 5).toNat ≤ 24) := by decide
theorem test_witness_SetPulseWidthApplies : Memory.wf (x3 0x3F).nv = true := by decide
/-- Each clause at both ends of its range: PPQN 1 and 24, just outside; both pulse widths, just outside. -/
theorem test_witness_DataByteStep :
    ((x3 0x18).sxState = .appliedChange ∧ Memory.wf (x3 0x18).nv = true) ∧
    (0x01 / 32 % 4 = 0 ∧ 1 ≤ 0x01 % 32 ∧ 0x01 % 32 ≤ 24) ∧ (0x98 / 32 % 4 = 0 ∧ 1 ≤ 0x98 % 32 ∧ 0x98 % 32 ≤ 24) ∧
    (0x3F % 32 = 31 ∧ 0x3F / 32 % 4 = 1) ∧ (0xDF % 32 = 31 ∧ 0xDF / 32 % 4 = 2) ∧
    (¬(1 ≤ 0x00 % 32) ∧ ¬(0x00 % 32 = 31)) ∧ (¬(0x99 % 32 ≤ 24) ∧ ¬(0x99 % 32 = 31)) ∧
    (¬(0x1F % 32 ≤ 24) ∧ ¬(0x1F / 32 % 4 = 1 ∨ 0x1F / 32 % 4 = 2)) ∧
    (¬(0x7F / 32 % 4 = 0) ∧ ¬(0x7F / 32 % 4 = 1 ∨ 0x7F / 32 % 4 = 2)) := by decide
theorem test_witness_DataOpsFrame :
    Instr.format (.setPpqn 0 4) = .X ∧ (∃ t, exec (.setPpqn 0 4) (x3 0x04) = .next t) ∧
    storeOffset? (.setPpqn 0 4) ≠ some 1 ∧ storeOffset? (.setPpqn 0 4) ≠ some nvPwOffset ∧
    storeOffset? (.setPw5ms 0) ≠ some nvPpqnOffset ∧ ∃ t, exec (.setPw5ms 0) (x3 0x3F) = .next t :=
  ⟨rfl, ⟨_, rfl⟩, by decide, by decide, by decide, _, rfl⟩
theorem test_witness_PpqnCommandAppliesAtDataByte : Memory.wf (dflt 0 false .idle []).nv = true ∧ 1 ≤ 1 ∧ 24 ≤ 24 := by
  decide
theorem test_witness_PulseWidthCommandAppliesAtDataByte :
    Memory.wf (dflt 0 false .idle []).nv = true ∧
    (PwCode.width5ms = .width5ms ∧ ((0xBF : Byte) = 0x3F ∨ (0xBF : Byte) = 0xBF)) ∧
    (PwCode.width15ms = .width15ms ∧ ((0xDF : Byte) = 0x5F ∨ (0xDF : Byte) = 0xDF)) := by decide
theorem test_witness_NoPartialApplication :
    (dflt 0 false .sawSubId2 [.byte 0x02 .low]).sxState ≠ .appliedChange ∧
    (dflt 0 false .sawSubId2 [.byte 0x02 .low]).inputs = [.byte 0x02 .low] := by decide
theorem test_witness_AtMostOneStoreWritePerByte :
    (∃ t, step (x3 0x04) = .next t) ∧ (x3 0x04).inputs = [.byte 0x04 .high] ∧
    (∃ t, step (dflt 0 false .idle [.tick]) = .next t) ∧ (dflt 0 false .idle [.tick]).inputs = [.tick] :=
  ⟨⟨_, rfl⟩, rfl, ⟨_, rfl⟩, rfl⟩
theorem test_witness_DivisorIsFloor :
    (1 ≤ (1 : BitVec 5).toNat ∧ (24 : BitVec 5).toNat ≤ 24) ∧ ¬(1 ≤ (0 : BitVec 5).toNat) ∧ ¬((25 : BitVec 5).toNat ≤ 24) := by
  decide
/-- Clocks of both levels with ticks among them, stopped; a divisor of 1, and of 24 from a cleared and from a preset counter:
a further counted Clock does and does not complete a multiple. -/
theorem test_witness_EveryDivthClockFires :
    let s := st 1 24 .width5ms 0 false .idle 0 [] []
    let p := st 1 24 .width5ms 23 true .idle 0 [] []
    let o := st 24 1 .width5ms 0 false .idle 0 [] []
    (s.clkCnt.toNat < s.div.toNat ∧ s.div.toNat ≤ 24 ∧ p.clkCnt.toNat < p.div.toNat ∧ o.clkCnt.toNat < o.div.toNat) ∧
    countedClocks s.running [.byte 0xF8 .high, .tick, .byte 0xF8 .low] = 1 ∧
    countedClocks p.running [.byte 0xF8 .high, .tick, .byte 0xF8 .low] = 2 ∧
    (¬s.div.toNat ∣ 0 + 22 + 1 ∧ s.div.toNat ∣ 0 + 23 + 1 ∧ p.div.toNat ∣ 23 + 0 + 1 ∧ ¬p.div.toNat ∣ 23 + 1 + 1 ∧
      o.div.toNat ∣ 0 + 5 + 1) := by decide
theorem test_witness_EveryDivthClockFires_schedule :
    ∀ e ∈ [Input.byte 0xF8 .high, .tick, .byte 0xF8 .low], e = .tick ∨ ∃ m, e = .byte 0xF8 m := by
  intro e he
  simp only [List.mem_cons, List.not_mem_nil, or_false] at he
  rcases he with rfl | rfl | rfl
  · exact .inr ⟨_, rfl⟩
  · exact .inl rfl
  · exact .inr ⟨_, rfl⟩
theorem test_witness_ModeMattersOnlyForClock : (0xFA : Byte) ≠ 0xF8 := by decide
theorem test_witness_FireIsNonRetriggerable :
    (st 2 12 .width5ms 0 false .idle 3 [] []).cdEn = true ∧ (dflt 0 false .idle []).cdEn = false := by decide
theorem test_witness_TickCountsDownAndExpires :
    (dflt 0 false .idle [.tick]).inputs = [.tick] ∧ (dflt 0 false .idle [.tick]).cdEn = false ∧
    ((st 2 12 .width5ms 0 false .idle 2 [] [.tick]).cdEn = true ∧ 2 ≤ (st 2 12 .width5ms 0 false .idle 2 [] [.tick]).cdCnt) ∧
    ((st 2 12 .width5ms 0 false .idle 1 [] [.tick]).cdEn = true ∧ (st 2 12 .width5ms 0 false .idle 1 [] [.tick]).cdCnt = 1) := by
  decide
/-- Four of the five ticks of a 5 ms pulse, among bytes. -/
theorem test_witness_PulseLastsExactlyItsTicks :
    (dflt 0 false .idle []).cdEn = false ∧ Input.reset ∉ [Input.tick, .byte 0xFC .low, .tick, .tick, .tick] ∧
    tickCount [.tick, .byte 0xFC .low, .tick, .tick, .tick] < pulseTicks (dflt 0 false .idle []).timebase .width5ms ∧
    tickCount [.tick, .byte 0xFC .low, .tick, .tick, .tick] + 1 = pulseTicks (dflt 0 false .idle []).timebase .width5ms := by
  decide
theorem test_witness_OnlyTickOrResetLowersLine :
    (∃ t, step (st 2 12 .width5ms 0 false .idle 1 [] [.tick]) = .next t ∧
      (st 2 12 .width5ms 0 false .idle 1 [] [.tick]).out = true ∧ t.out = false) ∧
    ∃ t, step (st 2 12 .width5ms 0 false .idle 3 [] [.reset]) = .next t ∧
      (st 2 12 .width5ms 0 false .idle 3 [] [.reset]).out = true ∧ t.out = false := ⟨⟨_, rfl, rfl, rfl⟩, _, rfl, rfl, rfl⟩
/-- The default state with a given input meets the invariants. -/
theorem dflt_inv (ins : List Input) : Inv (dflt 0 false .idle ins) :=
  { ppqn_ge := by change 1 ≤ (2 : BitVec 5).toNat; decide
    ppqn_le := by change (2 : BitVec 5).toNat ≤ 24; decide
    div_eq := by change (12 : BitVec 5).toNat = 24 / (2 : BitVec 5).toNat; decide
    clkCnt_le := by change (0 : BitVec 5).toNat ≤ 23; decide
    out_eq := rfl
    counting := by intro h; cases h
    resting := fun _ => rfl
    mirror_ppqn := rfl
    mirror_pw := rfl
    store_wf := rfl }
theorem test_witness_PgStartMarksRisingEdges :
    Inv (dflt 0 false .idle [.byte 0xF8 .high]) ∧ ∃ t, step (dflt 0 false .idle [.byte 0xF8 .high]) = .next t :=
  ⟨dflt_inv _, _, rfl⟩
theorem test_witness_TickTouchesOnlyThePulse : (dflt 0 false .idle [.tick]).inputs = [.tick] := rfl
theorem test_witness_ExpiryPrecedesByteInOneCycle :
    let s := st 24 1 .width5ms 0 true .idle 1 [] []
    s.cdEn = true ∧ s.cdCnt = 1 ∧ s.div.toNat ≤ s.clkCnt.toNat + 1 ∧ s.running = true := by decide
/-- The cycle with the byte `b` and the given strobes, mode-select high. -/
def cyc (rst tick rxValid : Bool) (b : Byte) : PortCycle :=
  { rst := rst, tick := tick, rxValid := rxValid, rxData := b, modeSel := .high }
theorem test_witness_PortCyclePerformsItsSteps :
    (∃ u, runOn (cycleSteps (cyc false true true 0xF8)) (dflt 11 false .idle []) = .next u) ∧
    (∃ t, portCycle (cyc false true true 0xF8) (dflt 11 false .idle []) = .next t) ∧ Inv (dflt 0 false .idle []) ∧
    (∃ t, portCycle (cyc false true true 0xF8) (dflt 0 false .idle []) = .next t) ∧
    (∃ v, runOn (cycleSteps { cyc false true true 0xF8 with rxValid := false }) (dflt 0 false .idle []) = .next v) ∧
    (∃ t, portCycle (cyc true true true 0xF8) (dflt 0 false .idle []) = .next t) ∧
    ∃ u, step ((dflt 0 false .idle []).feed [.reset]) = .next u :=
  ⟨⟨_, rfl⟩, ⟨_, rfl⟩, dflt_inv _, ⟨_, rfl⟩, ⟨_, rfl⟩, ⟨_, rfl⟩, _, rfl⟩
/-- 00_scope.md R10: in the cycle of the Clock that fires, `pg_start` is high and `sync_out` still low. -/
theorem test_port_fire : portOutputs (cyc false false true 0xF8) (dflt 11 false .idle []) =
    some { syncOut := false, pgStart := true, nv := [] } := by decide
/-- 00_scope.md R10: in an idle cycle after it the strobe is low again, and the line is high. -/
theorem test_port_idle_after_fire :
    (match portCycle (cyc false false true 0xF8) (dflt 11 false .idle []) with
      | .next t => portOutputs (cyc false false false 0) t
      | _ => none) = some { syncOut := true, pgStart := false, nv := [] } := by decide
/-- 70_reset_and_hazards.md R131 on an erased `PULSE_WIDTH`, with a tick and a byte in the cycle: reads and write at the port. -/
theorem test_port_reset : portOutputs (cyc true true true 0xFA) (st 3 8 .width5ms 5 true .sawSubId1 2 [(0, 6)] []) =
    some { syncOut := true, pgStart := false, nv := [.read 0 6, .read 1 0xFF, .write 1 1] } := by decide
/-- Offsets 0, 1 and 2. -/
theorem test_witness_StoreReadsBackLastWrite :
    Memory.wf (dflt 0 false .idle []).nv = true ∧ 0 < 2 ∧ 1 < 2 ∧ 2 ≤ 2 := by decide
theorem test_witness_EveryStepKeepsStoreCanonical :
    Memory.wf (x3 0x04).nv = true ∧ ∃ t, step (x3 0x04) = .next t := ⟨rfl, _, rfl⟩
theorem legal_of (s : State) (p w : Byte) (hp : readByte 0 s = .ok p) (hw : readByte 1 s = .ok w)
    (h : (p = 0xFF ∨ (1 ≤ p.toNat ∧ p.toNat ≤ 24)) ∧ (w = 0xFF ∨ w.toNat = 1 ∨ w.toNat = 2)) : NvLegal s :=
  ⟨p, w, hp, hw, h⟩
/-- A stored PPQN of 24 with an erased pulse width, and the other way round. -/
theorem test_witness_ResetLoadsConfiguration :
    (NvLegal (st 2 12 .width5ms 0 false .idle 0 [(0, 24)] [.reset]) ∧
      readByte 0 (st 2 12 .width5ms 0 false .idle 0 [(0, 24)] [.reset]) = .ok 24 ∧
      readByte 1 (st 2 12 .width5ms 0 false .idle 0 [(0, 24)] [.reset]) = .ok 0xFF) ∧
    (NvLegal (st 2 12 .width5ms 0 false .idle 0 [(1, 2)] [.reset]) ∧
      readByte 0 (st 2 12 .width5ms 0 false .idle 0 [(1, 2)] [.reset]) = .ok 0xFF ∧
      readByte 1 (st 2 12 .width5ms 0 false .idle 0 [(1, 2)] [.reset]) = .ok 2) ∧
    Memory.wf [(0, 24)] = true ∧ Memory.wf [(1, 2)] = true :=
  ⟨⟨legal_of _ 24 0xFF rfl rfl (by decide), rfl, rfl⟩, ⟨legal_of _ 0xFF 2 rfl rfl (by decide), rfl, rfl⟩, rfl, rfl⟩
/-- A stored pulse-width code 3. -/
theorem test_witness_IllegalStoreImageRefused :
    (st 2 12 .width5ms 0 false .idle 0 [(0, 2), (1, 3)] [.reset]).inputs = [.reset] ∧
    ¬NvLegal (st 2 12 .width5ms 0 false .idle 0 [(0, 2), (1, 3)] [.reset]) := by
  refine ⟨rfl, ?_⟩
  rintro ⟨p, w, -, hw, -, h⟩
  cases hw
  exact absurd h (by decide)
theorem test_witness_ErasedStoreBootsToResetState :
    (st 3 8 .width5ms 5 true .sawSubId1 2 [] [.reset]).nv = [] ∧
    (st 3 8 .width5ms 5 true .sawSubId1 2 [] [.reset]).inputs = [.reset] := ⟨rfl, rfl⟩
theorem test_witness_ConfigurationSurvivesReboot :
    Inv (dflt 0 false .idle [.reset]) ∧ (dflt 0 false .idle [.reset]).inputs = [.reset] := ⟨dflt_inv _, rfl⟩
theorem test_witness_EveryStepKeepsInvariants :
    Inv (dflt 0 false .idle [.byte 0xFA .low]) ∧ ∃ t, step (dflt 0 false .idle [.byte 0xFA .low]) = .next t :=
  ⟨dflt_inv _, _, rfl⟩
theorem test_witness_ResetEstablishesInvariants :
    Memory.wf (st 3 8 .width5ms 5 true .sawSubId1 2 [(0, 6)] [.reset]).nv = true ∧
    (st 3 8 .width5ms 5 true .sawSubId1 2 [(0, 6)] [.reset]).inputs = [.reset] ∧
    ∃ t, step (st 3 8 .width5ms 5 true .sawSubId1 2 [(0, 6)] [.reset]) = .next t := ⟨rfl, rfl, _, rfl⟩

end Sys2Proof.Tests
end

/-! The encoding (30_encoding.md): what each path's decoder answers, and where the decoded operation leaves the parser. -/

namespace Sys2Proof.Machine

/-! ## The dispatcher path's decoder (30_encoding.md R47) -/

@[simp] theorem decodeDispatch_F0 (m : Mode) : decodeDispatch m 0xF0#8 = .sox := rfl
@[simp] theorem decodeDispatch_F8 (m : Mode) : decodeDispatch m 0xF8#8 = .clock m := rfl
@[simp] theorem decodeDispatch_FA (m : Mode) : decodeDispatch m 0xFA#8 = .start := rfl
@[simp] theorem decodeDispatch_FB (m : Mode) : decodeDispatch m 0xFB#8 = .cont := rfl
@[simp] theorem decodeDispatch_FC (m : Mode) : decodeDispatch m 0xFC#8 = .stop := rfl

theorem decodeDispatch_of_notOpcode {b : Byte} (h : NotOpcode b) (m : Mode) : decodeDispatch m b = .ign b := by
  obtain ⟨hF0, hF8, hFA, hFB, hFC⟩ := h
  simp only [decodeDispatch, hF0, hF8, hFA, hFB, hFC, if_false]

theorem decodeDispatch_ne_sox {b : Byte} (h : b ≠ 0xF0#8) (m : Mode) : decodeDispatch m b ≠ .sox := by
  rw [decodeDispatch, if_neg h]
  split_ifs <;> exact Instr.noConfusion

/-! ## The SysEx path's decoder (30_encoding.md R48) -/

@[simp] theorem decodeSysex_idle (b : Byte) : decodeSysex .idle b = none := rfl

@[simp] theorem decodeSysex_appliedChange (b : Byte) : decodeSysex .appliedChange b = some (decodeData b) := rfl

/-- In a header state every byte but the state's constant is SX_ABORT. -/
theorem decodeSysex_of_header_mismatch {sx : SxState} {e b : Byte} (he : sx.headerByte? = some e) (hb : b ≠ e) :
    decodeSysex sx b = some (.sxAbort b) := by
  cases sx with
  | idle | appliedChange | awaitingTerminator => cases he
  | sawUniversalHeader | sawDeviceId | sawSubId1 | sawSubId2 => cases he; simp [decodeSysex, hb]

theorem decodeSysex_awaitingTerminator_of_ne {b : Byte} (h : b ≠ 0xF7#8) :
    decodeSysex .awaitingTerminator b = some (.sxHold b) := by
  simp [decodeSysex, h]

theorem decodeData_format (c : Byte) : (decodeData c).format = .X := by
  unfold decodeData
  split
  · rfl
  split
  · rfl
  split <;> rfl

/-! ## Where an operation leaves the parser -/

@[simp] theorem fire_sxState (s : State) : (fire s).sxState = s.sxState := by
  rcases fire_cases s with ⟨-, h⟩ | ⟨-, h⟩ <;> simp [h]

@[simp] theorem countClock_sxState (s : State) : (countClock s).sxState = s.sxState := by
  rcases countClock_cases s with ⟨-, h⟩ | ⟨-, h⟩ <;> simp [h]

/-- Every dispatcher operation but SOX completes and keeps the parser state. -/
theorem exec_dispatcher_keeps_sxState {i : Instr} (hf : i.format = .D) (hi : i ≠ .sox) (s : State) :
    ∃ t, exec i s = .next t ∧ t.sxState = s.sxState := by
  cases i with
  | sox => exact absurd rfl hi
  | clock m =>
    rcases exec_clock_cases m s with ⟨-, -, h⟩ | ⟨-, h⟩
    · exact ⟨_, h, rfl⟩
    · exact ⟨_, h, countClock_sxState s⟩
  | start => exact ⟨_, exec_start s, rfl⟩
  | cont => exact ⟨_, exec_cont s, rfl⟩
  | stop => exact ⟨_, exec_stop s, rfl⟩
  | ign b => exact ⟨_, exec_ign b s, rfl⟩
  | sxHdr | sxDevid | sxSub1 | sxSub2 | sxAbort _ | sxEox | sxHold _
  | setPpqn _ _ | setPw5ms _ | setPw15ms _ | dataNop _ _ _ => cases hf

/-- Every data-byte operation, the discard included, completes and awaits the terminator (41_sysex_config.md R81). -/
theorem exec_data_awaits_terminator {i : Instr} (hf : i.format = .X) (s : State) :
    ∃ t, exec i s = .next t ∧ t.sxState = .awaitingTerminator := by
  cases i with
  | setPpqn x val =>
    rcases exec_setPpqn_cases x val s with ⟨-, h⟩ | ⟨d, -, -, -, h⟩
    · exact ⟨_, h, rfl⟩
    · exact ⟨_, h, rfl⟩
  | setPw5ms x => exact ⟨_, exec_setPw5ms x s, rfl⟩
  | setPw15ms x => exact ⟨_, exec_setPw15ms x s, rfl⟩
  | dataNop x sel val => exact ⟨_, exec_dataNop x sel val s, rfl⟩
  | sox | clock _ | start | cont | stop | ign _
  | sxHdr | sxDevid | sxSub1 | sxSub2 | sxAbort _ | sxEox | sxHold _ => cases hf

/-! ## The rows of the SysEx path's table (30_encoding.md R48) -/

theorem sxRow_sxHdr : SxRow .sawUniversalHeader 0x7E#8 .sxHdr .sawDeviceId :=
  ⟨rfl, fun s _ => ⟨_, exec_sxHdr s, rfl⟩⟩

theorem sxRow_sxDevid : SxRow .sawDeviceId 0x49#8 .sxDevid .sawSubId1 :=
  ⟨rfl, fun s _ => ⟨_, exec_sxDevid s, rfl⟩⟩

theorem sxRow_sxSub1 : SxRow .sawSubId1 0x0B#8 .sxSub1 .sawSubId2 :=
  ⟨rfl, fun s _ => ⟨_, exec_sxSub1 s, rfl⟩⟩

theorem sxRow_sxSub2 : SxRow .sawSubId2 0x02#8 .sxSub2 .appliedChange :=
  ⟨rfl, fun s _ => ⟨_, exec_sxSub2 s, rfl⟩⟩

/-- The mismatch row of all four header states. -/
theorem sxRow_sxAbort {sx : SxState} {e b : Byte} (he : sx.headerByte? = some e) (hb : b ≠ e) :
    SxRow sx b (.sxAbort b) .idle :=
  ⟨decodeSysex_of_header_mismatch he hb, fun s _ => ⟨_, exec_sxAbort b s, rfl⟩⟩

theorem sxRow_data (b : Byte) : SxRow .appliedChange b (decodeData b) .awaitingTerminator :=
  ⟨decodeSysex_appliedChange b, fun s _ => exec_data_awaits_terminator (decodeData_format b) s⟩

theorem sxRow_sxEox : SxRow .awaitingTerminator 0xF7#8 .sxEox .idle :=
  ⟨rfl, fun s _ => ⟨_, exec_sxEox s, rfl⟩⟩

theorem sxRow_sxHold {b : Byte} (h : b ≠ 0xF7#8) : SxRow .awaitingTerminator b (.sxHold b) .awaitingTerminator :=
  ⟨decodeSysex_awaitingTerminator_of_ne h, fun s hs => ⟨_, exec_sxHold b s, hs⟩⟩

theorem exec_decodeDispatch_keeps_idle (m : Mode) {b : Byte} {s : State} (hb : b ≠ 0xF0#8) (hs : s.sxState = .idle) :
    ∃ t, exec (decodeDispatch m b) s = .next t ∧ t.sxState = .idle := by
  obtain ⟨t, ht, hsx⟩ := exec_dispatcher_keeps_sxState (decodeDispatch_format m b) (decodeDispatch_ne_sox hb m) s
  exact ⟨t, ht, hsx.trans hs⟩

/-! ## The obligations -/

/-- Settles O3, from one lemma per row; the four mismatch rows are one lemma over the state's constant. -/
theorem sysexPathFollowsItsTable : Obligations.SysexPathFollowsItsTable :=
  ⟨decodeSysex_idle,
    sxRow_sxHdr, fun _ => sxRow_sxAbort rfl,
    sxRow_sxDevid, fun _ => sxRow_sxAbort rfl,
    sxRow_sxSub1, fun _ => sxRow_sxAbort rfl,
    sxRow_sxSub2, fun _ => sxRow_sxAbort rfl,
    fun b => ⟨decodeData b, decodeData_format b, sxRow_data b⟩,
    sxRow_sxEox, fun _ => sxRow_sxHold,
    decodeDispatch_F0,
    fun s _ => ⟨_, exec_sox s, rfl⟩,
    fun m _ _ => exec_decodeDispatch_keeps_idle m⟩

/-- Settles O2, from the decoder's value at each constant and on the remaining class. -/
theorem dispatcherComparesFiveConstants : Obligations.DispatcherComparesFiveConstants :=
  fun m _ =>
    ⟨fun h => h ▸ decodeDispatch_F0 m,
      fun h => h ▸ decodeDispatch_F8 m,
      fun h => h ▸ decodeDispatch_FA m,
      fun h => h ▸ decodeDispatch_FB m,
      fun h => h ▸ decodeDispatch_FC m,
      fun h => decodeDispatch_of_notOpcode h m⟩

end Sys2Proof.Machine

/-! The dispatcher operations (40_realtime_dispatch.md): what each does alone, and what is left of it in a whole `BYTE` step
once phase 1 has run. -/

namespace Sys2Proof.Machine

/-! ## Phase 1 of a byte step (40_realtime_dispatch.md R60) -/

/-- The operations that frame the command write the parser state alone. -/
theorem exec_sysex_sets_sxState_only {i : Instr} (hf : i.format = .S) (s : State) :
    ∃ x, exec i s = .next (s.setSx x) := by
  cases i with
  | sxHdr => exact ⟨_, exec_sxHdr s⟩
  | sxDevid => exact ⟨_, exec_sxDevid s⟩
  | sxSub1 => exact ⟨_, exec_sxSub1 s⟩
  | sxSub2 => exact ⟨_, exec_sxSub2 s⟩
  | sxAbort b => exact ⟨_, exec_sxAbort b s⟩
  | sxEox => exact ⟨_, exec_sxEox s⟩
  | sxHold b => exact ⟨s.sxState, exec_sxHold b s⟩
  | sox | clock _ | start | cont | stop | ign _
  | setPpqn _ _ | setPw5ms _ | setPw15ms _ | dataNop _ _ _ => cases hf

/-- Outside `Idle` and the data slot a byte is offered to one of the operations that frame the command. -/
theorem decodeSysex_frames {sx : SxState} (hi : sx ≠ .idle) (hd : sx ≠ .appliedChange) (b : Byte) :
    ∃ i, decodeSysex sx b = some i ∧ i.format = .S := by
  cases sx with
  | idle => exact absurd rfl hi
  | appliedChange => exact absurd rfl hd
  | sawUniversalHeader | sawDeviceId | sawSubId1 | sawSubId2 | awaitingTerminator =>
    refine ⟨_, rfl, ?_⟩
    split <;> rfl

/-- Phase 1 of a byte that is discarded in the data slot writes the parser state alone, from every parser state. -/
theorem offer_sets_sxState_only {b : Byte} {x : BitVec 1} {sel : BitVec 2} {val : BitVec 5}
    (hb : decodeData b = .dataNop x sel val) (sx : SxState) (s : State) :
    ∃ y, offer (decodeSysex sx b) s = .next (s.setSx y) := by
  by_cases hi : sx = .idle
  · exact ⟨s.sxState, by rw [hi]; rfl⟩
  by_cases hd : sx = .appliedChange
  · exact ⟨.awaitingTerminator, by rw [hd, decodeSysex_appliedChange, hb, offer_some, exec_dataNop]⟩
  obtain ⟨i, hdec, hf⟩ := decodeSysex_frames hi hd b
  rw [hdec]
  exact exec_sysex_sets_sxState_only hf s

/-- In `Idle` no byte is offered to the SysEx path: phase 2 is the whole step. -/
theorem step_byte_of_idle {s : State} {b : Byte} {m : Mode} {rest : List Input} (hs : s.sxState = .idle)
    (h : s.inputs = .byte b m :: rest) : step s = exec (decodeDispatch m b) (s.enterStep rest) := by
  rw [step_byte h, hs, decodeSysex_idle, offer_none, andThen_next]

/-- SOX has the last word on the parser state (40_realtime_dispatch.md R61): `0xF0` is discarded in the data slot, so
phase 1 leaves nothing but a parser state, which SOX overwrites. -/
theorem step_sox {s : State} {m : Mode} {rest : List Input} (h : s.inputs = .byte 0xF0#8 m :: rest) :
    step s = .next ((s.enterStep rest).setSx .sawUniversalHeader) := by
  have hdiscard : decodeData 0xF0#8 = .dataNop 1#1 3#2 16#5 := by decide
  obtain ⟨x, hx⟩ := offer_sets_sxState_only hdiscard s.sxState (s.enterStep rest)
  rw [step_byte h, hx, andThen_next, decodeDispatch_F0, exec_sox]
  rfl

/-! ## The divider (40_realtime_dispatch.md R62, R63) -/

theorem startPreset_of_pos {div : BitVec 5} (h : 1 ≤ div.toNat) : startPreset div = div - 1#5 := by
  refine if_neg ?_
  rintro rfl
  simp at h

/-- The gate of CLOCK is open in free-running mode and while the transport runs. -/
theorem exec_clock_of_counted {m : Mode} {s : State} (h : m = .high ∨ s.running = true) :
    exec (.clock m) s = .next (countClock s) := by
  rcases exec_clock_cases m s with ⟨hm, hr, -⟩ | ⟨-, he⟩
  · simp [hm, hr] at h
  · exact he

theorem countClock_of_boundary {s : State} (h : s.div.toNat ≤ s.clkCnt.toNat + 1) :
    countClock s = (fire s).setClkCnt 0#5 := by
  rcases countClock_cases s with ⟨-, he⟩ | ⟨hlt, -⟩
  · exact he
  · omega

theorem countClock_of_below {s : State} (h : s.clkCnt.toNat + 1 < s.div.toNat) :
    countClock s = s.setClkCnt (s.clkCnt + 1#5) := by
  rcases countClock_cases s with ⟨hle, -⟩ | ⟨-, he⟩
  · omega
  · exact he

/-! ## `running` gates CLOCK and nothing behind the gate -/

theorem fire_setRunning (r : Bool) (s : State) : fire (s.setRunning r) = (fire s).setRunning r := by
  rcases fire_cases s with ⟨hbusy, h⟩ | ⟨hidle, h⟩
  · rw [h, fire_busy (by simpa using hbusy)]
  · rw [h, fire_idle (by simpa using hidle)]
    rfl

theorem countClock_setRunning (r : Bool) (s : State) :
    countClock (s.setRunning r) = (countClock s).setRunning r := by
  rcases countClock_cases s with ⟨hle, h⟩ | ⟨hlt, h⟩
  · rw [h, countClock_of_boundary (by simpa using hle), fire_setRunning]
    rfl
  · rw [h, countClock_of_below (by simpa using hlt)]
    rfl

/-! ## The obligations -/

/-- Settles O14: alone SOX is one register write, and in a step that write comes after phase 1. -/
theorem soxStartsSequence : Obligations.SoxStartsSequence :=
  fun s => ⟨exec_sox s, fun _ _ h => step_sox h⟩

/-- Settles O16: the preset `div - 1` is one count short of the division boundary, and `running` opens the gate of CLOCK in
either mode. -/
theorem startPresetsCounter : Obligations.StartPresetsCounter := by
  intro s hdiv
  have hpreset := startPreset_of_pos hdiv
  have hcnt := startPreset_toNat hdiv
  refine ⟨(s.setRunning true).setClkCnt (startPreset s.div), exec_start s, by rw [hpreset]; rfl, hcnt, fun m => ?_⟩
  rw [exec_clock_of_counted (.inr rfl), countClock_of_boundary]
  · rfl
  · simp only [State.setClkCnt_div, State.setRunning_div, State.setClkCnt_clkCnt]
    omega

/-- Settles O18: a free-running Clock is always counted, and counting commutes with the write of `running`. -/
theorem stopKeepsCounterAndPulse : Obligations.StopKeepsCounterAndPulse := by
  refine fun s => ⟨exec_stop s, fun u hu => ?_⟩
  rw [exec_clock_of_counted (.inl rfl)] at hu
  cases hu
  calc exec (.clock .high) (s.setRunning false)
      _ = .next (countClock (s.setRunning false)) := exec_clock_of_counted (.inl rfl)
      _ = .next ((countClock s).setRunning false) := by rw [countClock_setRunning]

/-- Settles O17: CONTINUE is one register write. -/
theorem continueKeepsCounter : Obligations.ContinueKeepsCounter := exec_cont

/-- Settles O19: the dispatcher path reads such a byte as IGN, and in `Idle` that is the whole step. -/
theorem otherBytesAreIgnored : Obligations.OtherBytesAreIgnored := by
  refine ⟨exec_ign, fun m _ hb => decodeDispatch_of_notOpcode hb m, fun s b m rest hs hb h => ?_⟩
  rw [step_byte_of_idle hs h, decodeDispatch_of_notOpcode hb, exec_ign]
  rfl

end Sys2Proof.Machine

/-! The SysEx parser (41_sysex_config.md sections 2 and 4): what phase 1 of a `BYTE` step leaves to the dispatcher path at a
header mismatch, while the parser awaits the terminator, and in `Idle`. -/

namespace Sys2Proof.Machine

/-! ## Phase 2 after phase 1 -/

/-- The dispatcher path acts on the same byte, from the state that the SysEx path's operation leaves
(40_realtime_dispatch.md R60). -/
theorem step_byte_of_offered {s u : State} {b : Byte} {m : Mode} {rest : List Input} {i : Instr}
    (h : s.inputs = .byte b m :: rest) (hd : decodeSysex s.sxState b = some i)
    (hu : exec i (s.enterStep rest) = .next u) : step s = exec (decodeDispatch m b) u := by
  rw [step_byte h, hd, offer_some, hu, andThen_next]

theorem step_byte_of_header_mismatch {s : State} {e b : Byte} {m : Mode} {rest : List Input}
    (he : s.sxState.headerByte? = some e) (hb : b ≠ e) (h : s.inputs = .byte b m :: rest) :
    step s = exec (decodeDispatch m b) ((s.enterStep rest).setSx .idle) :=
  step_byte_of_offered h (decodeSysex_of_header_mismatch he hb) (exec_sxAbort b _)

theorem step_byte_of_held {s : State} {b : Byte} {m : Mode} {rest : List Input}
    (hs : s.sxState = .awaitingTerminator) (hb : b ≠ 0xF7#8) (h : s.inputs = .byte b m :: rest) :
    step s = exec (decodeDispatch m b) (s.enterStep rest) := by
  have hd : decodeSysex s.sxState b = some (.sxHold b) := by
    rw [hs, decodeSysex_awaitingTerminator_of_ne hb]
  exact step_byte_of_offered h hd (exec_sxHold b _)

/-! ## The terminator byte -/

/-- No header state accepts the terminator, so there it is a mismatch like any other. -/
theorem headerByte_ne_terminator {sx : SxState} {e : Byte} (he : sx.headerByte? = some e) : 0xF7#8 ≠ e := by
  cases sx with
  | idle | appliedChange | awaitingTerminator => cases he
  | sawUniversalHeader | sawDeviceId | sawSubId1 | sawSubId2 => cases he; decide

theorem notOpcode_terminator : NotOpcode 0xF7#8 := by
  unfold NotOpcode
  decide

/-! ## The obligations -/

/-- Settles O23: the abort writes `Idle` before phase 2 begins, so SOX among the mismatching bytes starts a sequence
again. -/
theorem headerMismatchAborts : Obligations.HeaderMismatchAborts :=
  ⟨exec_sxAbort, fun _ _ _ _ _ he hb h =>
    ⟨decodeSysex_of_header_mismatch he hb, step_byte_of_header_mismatch he hb h⟩⟩

/-- Settles O27: in `Idle` phase 2 is the whole step, and no dispatcher operation but SOX moves the parser. -/
theorem idleIsLeftBySoxOnly : Obligations.IdleIsLeftBySoxOnly := by
  intro s b m rest hs h
  have hstep := step_byte_of_idle hs h
  refine ⟨hstep, fun hb => ?_⟩
  rw [hstep]
  exact exec_decodeDispatch_keeps_idle m hb hs

/-- Settles O21: the rows of the three constants, and one register write for each. -/
theorem headerBytesAdvanceParser : Obligations.HeaderBytesAdvanceParser :=
  ⟨sxRow_sxHdr.1, sxRow_sxSub1.1, sxRow_sxSub2.1, fun s => ⟨exec_sxHdr s, exec_sxSub1 s, exec_sxSub2 s⟩⟩

/-- Settles O24: in a header state `0xF7` is a mismatch, in the data slot its value 23 stands under the reserved selector 3,
and it is none of the dispatcher path's constants. -/
theorem terminatorReturnsToIdle : Obligations.TerminatorReturnsToIdle := by
  have hdata : decodeData 0xF7#8 = .dataNop 1#1 3#2 23#5 := by decide
  refine ⟨exec_sxEox, sxRow_sxEox.1, fun sx e he => ?_, ?_, decodeDispatch_of_notOpcode notOpcode_terminator⟩
  · exact decodeSysex_of_header_mismatch he (headerByte_ne_terminator he)
  · rw [decodeSysex_appliedChange, hdata]

/-- Settles O25: SX_HOLD leaves phase 2 the state as the step found it. -/
theorem otherBytesAreHeldOut : Obligations.OtherBytesAreHeldOut :=
  ⟨exec_sxHold, fun _ hb => decodeSysex_awaitingTerminator_of_ne hb, fun _ _ _ _ hs hb h => step_byte_of_held hs hb h⟩

end Sys2Proof.Machine

/-! Decoder and encoder (30_encoding.md): the classes of the data byte by its fields, which instructions are well-formed in a
context, the round trip on each path in both directions, and the decoder against the opcode table. -/

namespace Sys2Proof.Machine

/-! ## The data byte's fields (30_encoding.md R49) -/

theorem dataSel_toNat (c : Byte) : (dataSel c).toNat = c.toNat / 32 % 4 := by
  simp [dataSel, Nat.shiftRight_eq_div_pow]

theorem dataVal_toNat (c : Byte) : (dataVal c).toNat = c.toNat % 32 := by
  simp [dataVal]

theorem dataX_eq (c : Byte) : dataX c = BitVec.ofNat 1 (c.toNat / 128) := by
  apply BitVec.eq_of_toNat_eq
  simp [dataX, Nat.shiftRight_eq_div_pow]

theorem append_dataFields (c : Byte) : dataX c ++ dataSel c ++ dataVal c = c := by
  revert c
  decide

@[simp] theorem dataX_append (x : BitVec 1) (sel : BitVec 2) (val : BitVec 5) : dataX (x ++ sel ++ val) = x := by
  revert x sel val
  decide

@[simp] theorem dataSel_append (x : BitVec 1) (sel : BitVec 2) (val : BitVec 5) : dataSel (x ++ sel ++ val) = sel := by
  revert x sel val
  decide

@[simp] theorem dataVal_append (x : BitVec 1) (sel : BitVec 2) (val : BitVec 5) : dataVal (x ++ sel ++ val) = val := by
  revert x sel val
  decide

/-! ## The data byte's classes (30_encoding.md R50) -/

theorem ppqnShape_iff (sel : BitVec 2) (val : BitVec 5) :
    ppqnShape sel val = true ↔ sel.toNat = 0 ∧ 1 ≤ val.toNat ∧ val.toNat ≤ 24 := by
  simp [ppqnShape]

theorem pulseWidthShape_iff (sel : BitVec 2) (val : BitVec 5) :
    pulseWidthShape sel val = true ↔ val.toNat = 31 ∧ (sel.toNat = 1 ∨ sel.toNat = 2) := by
  simp [pulseWidthShape]

theorem decodeData_of_ppqn {c : Byte} (h : ppqnShape (dataSel c) (dataVal c) = true) :
    decodeData c = .setPpqn (dataX c) (dataVal c) := by
  obtain ⟨hsel, hge, hle⟩ := (ppqnShape_iff _ _).1 h
  have hsel : dataSel c = 0#2 := BitVec.eq_of_toNat_eq hsel
  exact if_pos ⟨hsel, hge, hle⟩

theorem decodeData_of_pw5ms {c : Byte} (hval : (dataVal c).toNat = 31) (hsel : (dataSel c).toNat = 1) :
    decodeData c = .setPw5ms (dataX c) := by
  have hval : dataVal c = 31#5 := BitVec.eq_of_toNat_eq hval
  have hsel : dataSel c = 1#2 := BitVec.eq_of_toNat_eq hsel
  simp [decodeData, hval, hsel]

theorem decodeData_of_pw15ms {c : Byte} (hval : (dataVal c).toNat = 31) (hsel : (dataSel c).toNat = 2) :
    decodeData c = .setPw15ms (dataX c) := by
  have hval : dataVal c = 31#5 := BitVec.eq_of_toNat_eq hval
  have hsel : dataSel c = 2#2 := BitVec.eq_of_toNat_eq hsel
  simp [decodeData, hval, hsel]

theorem decodeData_of_discarded {c : Byte} (hp : ppqnShape (dataSel c) (dataVal c) = false)
    (hw : pulseWidthShape (dataSel c) (dataVal c) = false) :
    decodeData c = .dataNop (dataX c) (dataSel c) (dataVal c) := by
  unfold decodeData
  split_ifs with h1 h2 h3
  · obtain ⟨hsel, hge, hle⟩ := h1
    have := (ppqnShape_iff _ _).2 ⟨congrArg BitVec.toNat hsel, hge, hle⟩
    simp [hp] at this
  · simp [pulseWidthShape, h2] at hw
  · simp [pulseWidthShape, h3] at hw
  · rfl

/-- Every data byte is in one of the three classes; the two pulse widths are rows of their own. -/
theorem decodeData_cases (c : Byte) :
    (ppqnShape (dataSel c) (dataVal c) = true ∧ decodeData c = .setPpqn (dataX c) (dataVal c)) ∨
    ((dataVal c).toNat = 31 ∧ (dataSel c).toNat = 1 ∧ decodeData c = .setPw5ms (dataX c)) ∨
    ((dataVal c).toNat = 31 ∧ (dataSel c).toNat = 2 ∧ decodeData c = .setPw15ms (dataX c)) ∨
    (ppqnShape (dataSel c) (dataVal c) = false ∧ pulseWidthShape (dataSel c) (dataVal c) = false ∧
      decodeData c = .dataNop (dataX c) (dataSel c) (dataVal c)) := by
  cases hp : ppqnShape (dataSel c) (dataVal c) with
  | true => exact .inl ⟨rfl, decodeData_of_ppqn hp⟩
  | false =>
    cases hw : pulseWidthShape (dataSel c) (dataVal c) with
    | true =>
      obtain ⟨hval, hsel | hsel⟩ := (pulseWidthShape_iff _ _).1 hw
      · exact .inr (.inl ⟨hval, hsel, decodeData_of_pw5ms hval hsel⟩)
      · exact .inr (.inr (.inl ⟨hval, hsel, decodeData_of_pw15ms hval hsel⟩))
    | false => exact .inr (.inr (.inr ⟨rfl, rfl, decodeData_of_discarded hp hw⟩))

/-! ## Well-formed instructions -/

theorem wellFormedIn_ign_iff (c : Context) (b : Byte) : (Instr.ign b).wellFormedIn c = true ↔ NotOpcode b := by
  simp [Instr.wellFormedIn, NotOpcode]

theorem wellFormedIn_sxAbort_iff (c : Context) (b : Byte) :
    (Instr.sxAbort b).wellFormedIn c = true ↔ ∃ e, c.sx.headerByte? = some e ∧ b ≠ e := by
  cases h : c.sx.headerByte? <;> simp [Instr.wellFormedIn, h]

theorem wellFormedIn_sxHold_iff (c : Context) (b : Byte) :
    (Instr.sxHold b).wellFormedIn c = true ↔ c.sx = .awaitingTerminator ∧ b ≠ 0xF7#8 := by
  simp [Instr.wellFormedIn]

theorem wellFormedIn_setPpqn_iff (c : Context) (x : BitVec 1) (val : BitVec 5) :
    (Instr.setPpqn x val).wellFormedIn c = true ↔ c.sx = .appliedChange ∧ ppqnShape 0#2 val = true := by
  simp [Instr.wellFormedIn]

theorem wellFormedIn_dataNop_iff (c : Context) (x : BitVec 1) (sel : BitVec 2) (val : BitVec 5) :
    (Instr.dataNop x sel val).wellFormedIn c = true ↔
      c.sx = .appliedChange ∧ ppqnShape sel val = false ∧ pulseWidthShape sel val = false := by
  simp [Instr.wellFormedIn, and_assoc]

/-- The context of an instruction that has one of its own is a parser state. -/
theorem wellFormedIn_of_sx {c : Context} {i : Instr} {sx : SxState} (h : i.wellFormedIn c = (c.sx == sx))
    (hw : i.wellFormedIn c = true) : c.sx = sx := by
  simpa [h] using hw

/-! ## The round trip (30_encoding.md R46, R52) -/

theorem encode_setPw5ms (x : BitVec 1) : encode (.setPw5ms x) = x ++ 1#2 ++ 31#5 := by
  revert x
  decide

theorem encode_setPw15ms (x : BitVec 1) : encode (.setPw15ms x) = x ++ 2#2 ++ 31#5 := by
  revert x
  decide

theorem decodeData_encode_setPpqn (x : BitVec 1) {val : BitVec 5} (h : ppqnShape 0#2 val = true) :
    decodeData (encode (.setPpqn x val)) = .setPpqn x val := by
  have := decodeData_of_ppqn (c := x ++ 0#2 ++ val) (by simpa using h)
  simpa [encode] using this

theorem decodeData_encode_setPw5ms (x : BitVec 1) : decodeData (encode (.setPw5ms x)) = .setPw5ms x := by
  rw [encode_setPw5ms, decodeData_of_pw5ms (by simp) (by simp), dataX_append]

theorem decodeData_encode_setPw15ms (x : BitVec 1) : decodeData (encode (.setPw15ms x)) = .setPw15ms x := by
  rw [encode_setPw15ms, decodeData_of_pw15ms (by simp) (by simp), dataX_append]

theorem decodeData_encode_dataNop (x : BitVec 1) {sel : BitVec 2} {val : BitVec 5} (hp : ppqnShape sel val = false)
    (hw : pulseWidthShape sel val = false) : decodeData (encode (.dataNop x sel val)) = .dataNop x sel val := by
  have := decodeData_of_discarded (c := x ++ sel ++ val) (by simpa using hp) (by simpa using hw)
  simpa [encode] using this

/-- A header state reads its constant as the one operation whose byte it is, and aborts on every other byte. -/
theorem decodeSysex_of_header {sx : SxState} {e : Byte} (he : sx.headerByte? = some e) (m : Mode) :
    ∃ i, i.format = .S ∧ encode i = e ∧ i.wellFormedIn ⟨sx, m⟩ = true ∧
      ∀ b, decodeSysex sx b = some (if b = e then i else .sxAbort b) := by
  cases sx with
  | idle | appliedChange | awaitingTerminator => cases he
  | sawUniversalHeader => cases he; exact ⟨.sxHdr, rfl, rfl, rfl, fun _ => rfl⟩
  | sawDeviceId => cases he; exact ⟨.sxDevid, rfl, rfl, rfl, fun _ => rfl⟩
  | sawSubId1 => cases he; exact ⟨.sxSub1, rfl, rfl, rfl, fun _ => rfl⟩
  | sawSubId2 => cases he; exact ⟨.sxSub2, rfl, rfl, rfl, fun _ => rfl⟩

/-- What the data byte decodes to is well-formed in the data slot, and its byte is the one received. -/
theorem decodeData_sound (m : Mode) (b : Byte) :
    (decodeData b).wellFormedIn ⟨.appliedChange, m⟩ = true ∧ encode (decodeData b) = b := by
  have hfields {x : BitVec 1} {sel : BitVec 2} {val : BitVec 5} (hx : dataX b = x) (hsel : dataSel b = sel)
      (hval : dataVal b = val) : x ++ sel ++ val = b := by
    rw [← hx, ← hsel, ← hval, append_dataFields]
  rcases decodeData_cases b with ⟨hp, h⟩ | ⟨hval, hsel, h⟩ | ⟨hval, hsel, h⟩ | ⟨hp, hw, h⟩ <;> rw [h]
  · have hsel : dataSel b = 0#2 := BitVec.eq_of_toNat_eq ((ppqnShape_iff _ _).1 hp).1
    exact ⟨(wellFormedIn_setPpqn_iff _ _ _).2 ⟨rfl, hsel ▸ hp⟩, hfields rfl hsel rfl⟩
  · exact ⟨rfl, (encode_setPw5ms _).trans (hfields rfl (BitVec.eq_of_toNat_eq hsel) (BitVec.eq_of_toNat_eq hval))⟩
  · exact ⟨rfl, (encode_setPw15ms _).trans (hfields rfl (BitVec.eq_of_toNat_eq hsel) (BitVec.eq_of_toNat_eq hval))⟩
  · exact ⟨(wellFormedIn_dataNop_iff _ _ _ _).2 ⟨rfl, hp, hw⟩, append_dataFields b⟩

theorem opcode_or_notOpcode (b : Byte) :
    b = 0xF0#8 ∨ b = 0xF8#8 ∨ b = 0xFA#8 ∨ b = 0xFB#8 ∨ b = 0xFC#8 ∨ NotOpcode b := by
  unfold NotOpcode
  tauto

theorem decodeDispatch_sound (c : Context) (b : Byte) :
    (decodeDispatch c.mode b).wellFormedIn c = true ∧ encode (decodeDispatch c.mode b) = b := by
  rcases opcode_or_notOpcode b with rfl | rfl | rfl | rfl | rfl | hb
  · exact ⟨rfl, rfl⟩
  · exact ⟨by simp [Instr.wellFormedIn], rfl⟩
  · exact ⟨rfl, rfl⟩
  · exact ⟨rfl, rfl⟩
  · exact ⟨rfl, rfl⟩
  · rw [decodeDispatch_of_notOpcode hb]
    exact ⟨(wellFormedIn_ign_iff c b).2 hb, rfl⟩

theorem headerByte_or_rest (sx : SxState) :
    (∃ e, sx.headerByte? = some e) ∨ sx = .idle ∨ sx = .appliedChange ∨ sx = .awaitingTerminator := by
  cases sx with
  | idle => exact .inr (.inl rfl)
  | appliedChange => exact .inr (.inr (.inl rfl))
  | awaitingTerminator => exact .inr (.inr (.inr rfl))
  | sawUniversalHeader | sawDeviceId | sawSubId1 | sawSubId2 => exact .inl ⟨_, rfl⟩

theorem decodeSysex_eq_none_iff (sx : SxState) (b : Byte) : decodeSysex sx b = none ↔ sx = .idle := by
  cases sx <;> simp [decodeSysex]

theorem decodeSysex_sound {c : Context} {b : Byte} {i : Instr} (h : decodeSysex c.sx b = some i) :
    i.format ≠ .D ∧ i.wellFormedIn c = true ∧ encode i = b := by
  obtain ⟨sx, m⟩ := c
  rcases headerByte_or_rest sx with ⟨e, he⟩ | rfl | rfl | rfl
  · obtain ⟨j, hf, henc, hwf, hdec⟩ := decodeSysex_of_header he m
    rw [hdec] at h
    by_cases hb : b = e
    · rw [if_pos hb] at h
      cases h
      exact ⟨by simp [hf], hwf, henc.trans hb.symm⟩
    · rw [if_neg hb] at h
      cases h
      exact ⟨nofun, (wellFormedIn_sxAbort_iff _ b).2 ⟨e, he, hb⟩, rfl⟩
  · cases h
  · cases h
    exact ⟨by simp [decodeData_format], decodeData_sound m b⟩
  · by_cases hb : b = 0xF7#8
    · subst hb
      cases h
      exact ⟨nofun, rfl, rfl⟩
    · rw [decodeSysex_awaitingTerminator_of_ne hb] at h
      cases h
      exact ⟨nofun, (wellFormedIn_sxHold_iff _ b).2 ⟨rfl, hb⟩, rfl⟩

/-- Settles O5: the constants are compared in full, and IGN is well-formed exactly on the rest. -/
theorem dispatcherDecodeOfEncode : Obligations.DispatcherDecodeOfEncode := by
  intro c i hf hw
  cases i with
  | sox | start | cont | stop => rfl
  | clock m =>
    have hm : m = c.mode := by simpa [Instr.wellFormedIn] using hw
    rw [hm]
    rfl
  | ign b => exact decodeDispatch_of_notOpcode ((wellFormedIn_ign_iff c b).1 hw) c.mode
  | sxHdr | sxDevid | sxSub1 | sxSub2 | sxAbort _ | sxEox | sxHold _
  | setPpqn _ _ | setPw5ms _ | setPw15ms _ | dataNop _ _ _ => cases hf

/-- Settles O6: well-formedness fixes the parser state, and the data byte's fields are read back from their places. -/
theorem sysexDecodeOfEncode : Obligations.SysexDecodeOfEncode := by
  rintro ⟨sx, m⟩ i hf hw
  change decodeSysex sx (encode i) = some i
  cases i with
  | sox | clock _ | start | cont | stop | ign _ => exact absurd rfl hf
  | sxHdr | sxDevid | sxSub1 | sxSub2 | sxEox =>
    cases wellFormedIn_of_sx rfl hw
    rfl
  | sxAbort b =>
    obtain ⟨e, he, hb⟩ := (wellFormedIn_sxAbort_iff _ b).1 hw
    exact decodeSysex_of_header_mismatch he hb
  | sxHold b =>
    obtain ⟨rfl, hb⟩ := (wellFormedIn_sxHold_iff _ b).1 hw
    exact decodeSysex_awaitingTerminator_of_ne hb
  | setPpqn x val =>
    obtain ⟨rfl, hp⟩ := (wellFormedIn_setPpqn_iff _ x val).1 hw
    exact congrArg some (decodeData_encode_setPpqn x hp)
  | setPw5ms x =>
    cases wellFormedIn_of_sx rfl hw
    exact congrArg some (decodeData_encode_setPw5ms x)
  | setPw15ms x =>
    cases wellFormedIn_of_sx rfl hw
    exact congrArg some (decodeData_encode_setPw15ms x)
  | dataNop x sel val =>
    obtain ⟨rfl, hp, hpw⟩ := (wellFormedIn_dataNop_iff _ x sel val).1 hw
    exact congrArg some (decodeData_encode_dataNop x hp hpw)

/-- Settles O7, from the soundness of each path's decoder. -/
theorem everyByteDecodesWellFormed : Obligations.EveryByteDecodesWellFormed :=
  fun c b =>
    ⟨⟨decodeDispatch_format c.mode b, decodeDispatch_sound c b⟩, decodeSysex_eq_none_iff c.sx b,
      fun _ h => decodeSysex_sound h⟩

theorem notOpcode_of_accepted {c : Byte} (h : ∀ x sel val, decodeData c ≠ .dataNop x sel val) : NotOpcode c := by
  rcases opcode_or_notOpcode c with rfl | rfl | rfl | rfl | rfl | hc
  · exact absurd rfl (h 1#1 3#2 16#5)
  · exact absurd rfl (h 1#1 3#2 24#5)
  · exact absurd rfl (h 1#1 3#2 26#5)
  · exact absurd rfl (h 1#1 3#2 27#5)
  · exact absurd rfl (h 1#1 3#2 28#5)
  · exact hc

/-- Settles O9: each of the five constants has the reserved selector 3, which the data slot discards. -/
theorem acceptedDataIsNoDispatcherOpcode : Obligations.AcceptedDataIsNoDispatcherOpcode :=
  fun _ m h => decodeDispatch_of_notOpcode (notOpcode_of_accepted h) m

/-- Settles O4: the fields of the byte are quotients and remainders of its value. -/
theorem dataByteClasses : Obligations.DataByteClasses := by
  intro c sel val x
  have hx : dataX c = x := dataX_eq c
  have hsel : (dataSel c).toNat = sel := dataSel_toNat c
  have hval : (dataVal c).toNat = val := dataVal_toNat c
  have hsel' : dataSel c = BitVec.ofNat 2 sel := by rw [← hsel, BitVec.ofNat_toNat, BitVec.setWidth_eq]
  have hval' : dataVal c = BitVec.ofNat 5 val := by rw [← hval, BitVec.ofNat_toNat, BitVec.setWidth_eq]
  have hp := ppqnShape_iff (dataSel c) (dataVal c)
  have hw := pulseWidthShape_iff (dataSel c) (dataVal c)
  rw [hsel, hval] at hp hw
  rw [← hx, ← hsel', ← hval']
  refine ⟨fun h => decodeData_of_ppqn (hp.2 h), fun h => decodeData_of_pw5ms (hval.trans h.1) (hsel.trans h.2),
    fun h => decodeData_of_pw15ms (hval.trans h.1) (hsel.trans h.2), fun h => decodeData_of_discarded ?_ ?_⟩
  · exact Bool.eq_false_iff.2 (h.1 ∘ hp.1)
  · exact Bool.eq_false_iff.2 (h.2 ∘ hw.1)

/-- Settles O1: each byte at its row. -/
theorem sampleBytesDecodeAsTabled : Obligations.SampleBytesDecodeAsTabled :=
  ⟨decodeDispatch_F0 .low, decodeDispatch_F8 .high, decodeDispatch_of_notOpcode (by unfold NotOpcode; decide) .low,
    sxRow_sxHdr.1, decodeSysex_of_header_mismatch rfl (by decide), sxRow_sxDevid.1, sxRow_sxEox.1,
    by decide, by decide, by decide, by decide⟩

/-! ## The opcode table (30_encoding.md R56) -/

/-- The first applicable row of a list of rows: the head's mnemonic if it applies, else the rest decides. -/
theorem firstRow_cons (p : TableRow → Bool) (r : TableRow) (rows : List TableRow) :
    ((r :: rows).find? p).map TableRow.mnemonic =
      if p r then some r.mnemonic else (rows.find? p).map TableRow.mnemonic := by
  cases h : p r <;> simp [h]

theorem and_fullMask (b : Byte) : b &&& 0xFF#8 = b := BitVec.and_allOnes

theorem and_selMask_iff (c : Byte) : c &&& 0x60#8 = 0x00#8 ↔ (dataSel c).toNat = 0 := by
  revert c
  decide

theorem and_pw5msMask_iff (c : Byte) :
    c &&& 0x7F#8 = 0x3F#8 ↔ (dataVal c).toNat = 31 ∧ (dataSel c).toNat = 1 := by
  revert c
  decide

theorem and_pw15msMask_iff (c : Byte) :
    c &&& 0x7F#8 = 0x5F#8 ↔ (dataVal c).toNat = 31 ∧ (dataSel c).toNat = 2 := by
  revert c
  decide

theorem tableLookup_dispatcher (sx : SxState) (m : Mode) (b : Byte) :
    tableLookup (· == .D) sx b = some (decodeDispatch m b).mnemonic := by
  have hrows : tableLookup (· == .D) sx b =
      if b = 0xF0#8 then some "SOX"
      else if b = 0xF8#8 then some "CLOCK"
      else if b = 0xFA#8 then some "START"
      else if b = 0xFB#8 then some "CONTINUE"
      else if b = 0xFC#8 then some "STOP"
      else some "IGN" := by
    simp [tableLookup, opcodeTable, firstRow_cons, rowApplies, and_fullMask]
  rw [hrows]
  unfold decodeDispatch
  split_ifs <;> rfl

theorem tableLookup_header {sx : SxState} {e : Byte} (he : sx.headerByte? = some e) (b : Byte) :
    tableLookup (· != .D) sx b = (decodeSysex sx b).map Instr.mnemonic := by
  by_cases hb : b = e <;> cases sx with
  | idle | appliedChange | awaitingTerminator => cases he
  | sawUniversalHeader | sawDeviceId | sawSubId1 | sawSubId2 =>
    cases he
    simp [tableLookup, opcodeTable, rowApplies, and_fullMask, decodeSysex, hb, Instr.mnemonic]

theorem tableLookup_awaitingTerminator (b : Byte) :
    tableLookup (· != .D) .awaitingTerminator b = (decodeSysex .awaitingTerminator b).map Instr.mnemonic := by
  by_cases hb : b = 0xF7#8 <;>
    simp [tableLookup, opcodeTable, rowApplies, and_fullMask, decodeSysex, hb, Instr.mnemonic]

theorem tableLookup_appliedChange (b : Byte) :
    tableLookup (· != .D) .appliedChange b = some (decodeData b).mnemonic := by
  have hrows : tableLookup (· != .D) .appliedChange b =
      if ppqnShape (dataSel b) (dataVal b) = true then some "SET_PPQN"
      else if (dataVal b).toNat = 31 ∧ (dataSel b).toNat = 1 then some "SET_PW.5MS"
      else if (dataVal b).toNat = 31 ∧ (dataSel b).toNat = 2 then some "SET_PW.15MS"
      else some "DATA_NOP" := by
    simp only [tableLookup, opcodeTable, firstRow_cons, rowApplies, ← dataVal_toNat]
    simp [and_selMask_iff, and_pw5msMask_iff, and_pw15msMask_iff, ppqnShape_iff]
  rw [hrows]
  rcases decodeData_cases b with ⟨hp, h⟩ | ⟨hval, hsel, h⟩ | ⟨hval, hsel, h⟩ | ⟨hp, hw, h⟩ <;> rw [h]
  · simp [hp, Instr.mnemonic]
  · simp [hval, hsel, ppqnShape, Instr.mnemonic]
  · simp [hval, hsel, ppqnShape, Instr.mnemonic]
  · have hw := mt (pulseWidthShape_iff _ _).2 (Bool.eq_false_iff.1 hw)
    have h5ms : ¬((dataVal b).toNat = 31 ∧ (dataSel b).toNat = 1) := fun h => hw ⟨h.1, .inl h.2⟩
    have h15ms : ¬((dataVal b).toNat = 31 ∧ (dataSel b).toNat = 2) := fun h => hw ⟨h.1, .inr h.2⟩
    simp only [hp, h5ms, h15ms, Bool.false_eq_true, if_false, Instr.mnemonic]

/-- Settles O8: on each path the rows that can apply are tested in the order in which the decoder tests them. -/
theorem decoderAgreesWithOpcodeTable : Obligations.DecoderAgreesWithOpcodeTable := by
  rintro ⟨sx, m⟩ b
  refine ⟨tableLookup_dispatcher sx m b, ?_⟩
  change tableLookup (· != .D) sx b = (decodeSysex sx b).map Instr.mnemonic
  rcases headerByte_or_rest sx with ⟨e, he⟩ | rfl | rfl | rfl
  · exact tableLookup_header he b
  · rfl
  · exact tableLookup_appliedChange b
  · exact tableLookup_awaitingTerminator b

end Sys2Proof.Machine

/-! One operation, one step: every operation and every step but a reset completes, which of them runs, and what each leaves
unchanged (40_realtime_dispatch.md sections 1 and 2, 41_sysex_config.md sections 2 to 4, 60_exceptions.md section 1). -/

namespace Sys2Proof.Machine

/-! ## Every operation completes -/

theorem exec_completes (i : Instr) (s : State) : ∃ t, exec i s = .next t := by
  cases hf : i.format with
  | D =>
    by_cases hi : i = .sox
    · exact ⟨_, hi ▸ exec_sox s⟩
    · obtain ⟨t, ht, -⟩ := exec_dispatcher_keeps_sxState hf hi s
      exact ⟨t, ht⟩
  | S =>
    obtain ⟨x, hx⟩ := exec_sysex_sets_sxState_only hf s
    exact ⟨_, hx⟩
  | X =>
    obtain ⟨t, ht, -⟩ := exec_data_awaits_terminator hf s
    exact ⟨t, ht⟩

theorem offer_completes (i : Option Instr) (s : State) : ∃ t, offer i s = .next t := by
  cases i with
  | none => exact ⟨s, rfl⟩
  | some i => exact exec_completes i s

theorem perform_completes {e : Input} (he : e ≠ .reset) (s : State) : ∃ t, perform e s = .next t := by
  cases e with
  | byte b m =>
    obtain ⟨u, hu⟩ := offer_completes (decodeSysex s.sxState b) s
    obtain ⟨t, ht⟩ := exec_completes (decodeDispatch m b) u
    exact ⟨t, by simp only [perform, byteStep, decode, hu, andThen_next, ht]⟩
  | tick => exact ⟨_, rfl⟩
  | reset => exact absurd rfl he

/-- Settles O12: a step is the waiting step or what its input asks for, and only a reset can be refused. -/
theorem noByteOrTickStops : Obligations.NoByteOrTickStops := by
  refine ⟨exec_completes, fun s hs => ?_⟩
  match hi : s.inputs with
  | [] => exact ⟨_, step_waiting hi⟩
  | e :: rest =>
    have he : e ≠ .reset := fun he => hs rest (he ▸ hi)
    rw [← feed_self hi, step_perform]
    exact perform_completes he _

/-! ## Which operation a step runs -/

/-- Settles O10: the state with the input taken and the strobes low is the one that `enterStep` leaves. -/
theorem stepRunsDecodedByte : Obligations.StepRunsDecodedByte :=
  fun _ _ _ _ h => ⟨fun hs => step_byte_of_idle hs h, fun _ _ hd _ hu => step_byte_of_offered h hd hu⟩

/-- Settles O11: the waiting step is the step with the empty list of inputs for `rest`. -/
theorem nextInputSelectsStep : Obligations.NextInputSelectsStep := by
  refine fun s => ⟨fun h => ?_, fun _ h => step_tick h, fun _ h => step_reset h⟩
  calc step s
      _ = .next (s.enterStep []) := step_waiting h
      _ = .next (s.enterStep s.inputs) := by rw [h]

/-- Outside the data slot phase 1 writes the parser state alone. -/
theorem offer_of_not_data {sx : SxState} (hd : sx ≠ .appliedChange) (b : Byte) (s : State) :
    ∃ y, offer (decodeSysex sx b) s = .next (s.setSx y) := by
  by_cases hi : sx = .idle
  · exact ⟨s.sxState, by rw [hi]; rfl⟩
  · obtain ⟨i, hdec, hf⟩ := decodeSysex_frames hi hd b
    rw [hdec]
    exact exec_sysex_sets_sxState_only hf s

/-- A byte whose context lies on the SysEx path is none of the dispatcher's constants. -/
theorem notOpcode_of_tableContext {b : Byte} (h : (tableContext b).sx ≠ .idle) : NotOpcode b := by
  rcases opcode_or_notOpcode b with rfl | rfl | rfl | rfl | rfl | hb
  · exact absurd rfl h
  · exact absurd rfl h
  · exact absurd rfl h
  · exact absurd rfl h
  · exact absurd rfl h
  · exact hb

/-- Settles O13: in `Idle` phase 2 is the whole step, and in every other context the byte is ignored by phase 2. -/
theorem placedWordRunsFirst : Obligations.PlacedWordRunsFirst := by
  intro s w hw
  have hmod : w % 2 ^ 8 = w := Nat.mod_eq_of_lt hw
  set b := BitVec.ofNat 8 w with hb
  have hword : decodeTableWord 8 w =
      some ((decodeSysex (tableContext b).sx b).getD (decodeDispatch (tableContext b).mode b)) :=
    if_pos ⟨rfl, hw⟩
  have hplaced : s.withFetchWord 8 w = s.deliverNext (tableContext b) b := by
    simp only [State.withFetchWord, hmod, ← hb]
  have hin : (s.deliverNext (tableContext b) b).inputs = .byte b (tableContext b).mode :: s.inputs := rfl
  rw [hword, hplaced]
  refine ⟨_, rfl, ?_⟩
  cases hd : decodeSysex (tableContext b).sx b with
  | none => exact step_byte_of_idle ((decodeSysex_eq_none_iff _ b).1 hd) hin
  | some i =>
    have hsx : (tableContext b).sx ≠ .idle := fun hi => by simp [hi] at hd
    obtain ⟨u, hu⟩ := exec_completes i ((s.deliverNext (tableContext b) b).enterStep s.inputs)
    rw [step_byte_of_offered hin hd hu, decodeDispatch_of_notOpcode (notOpcode_of_tableContext hsx), exec_ign]
    exact hu.symm

theorem decodeDispatch_of_ne_clock {b : Byte} (hb : b ≠ 0xF8#8) (m m' : Mode) :
    decodeDispatch m b = decodeDispatch m' b := by
  simp only [decodeDispatch, hb, if_false]

/-- Settles O42: of the two decodings only CLOCK's operand is the level. -/
theorem modeMattersOnlyForClock : Obligations.ModeMattersOnlyForClock := by
  intro s b m m' rest hb
  simp only [step_perform, perform, byteStep, decode, decodeDispatch_of_ne_clock hb m m']

/-! ## The dispatcher operations -/

theorem exec_clock_of_gated {m : Mode} {s : State} (h : m = .low ∧ s.running = false) :
    exec (.clock m) s = .next s := by
  rcases exec_clock_cases m s with ⟨-, -, he⟩ | ⟨hg, -⟩
  · exact he
  · simp [h] at hg

/-- Settles O15: the gate, then the counter below and at the division boundary, and there the line busy or idle. -/
theorem clockCountsAndFires : Obligations.ClockCountsAndFires := by
  refine fun m s => ⟨exec_clock_of_gated, fun hg => ?_⟩
  rw [exec_clock_of_counted hg]
  refine ⟨fun hlt => ?_, fun hle hbusy => ?_, fun hle hidle => ?_⟩
  · rw [countClock_of_below hlt]
    rfl
  · rw [countClock_of_boundary hle, fire_busy hbusy]
    rfl
  · rw [countClock_of_boundary hle, fire_idle hidle]
    rfl

/-- The part of the state that a counted Clock can change: the counter, the pulse and the strobe. -/
theorem countClock_eq (s : State) :
    ∃ c o e n g, countClock s =
      { s with clkCnt := c, out := o, cdEn := e, cdCnt := n, ports := { s.ports with pgStart := g } } := by
  rcases countClock_cases s with ⟨-, h⟩ | ⟨-, h⟩
  · rcases fire_cases s with ⟨-, hf⟩ | ⟨-, hf⟩
    · exact ⟨_, _, _, _, _, by rw [h, hf]; rfl⟩
    · exact ⟨_, _, _, _, _, by rw [h, hf]; rfl⟩
  · exact ⟨_, _, _, _, _, h⟩

theorem exec_clock_eq (m : Mode) (s : State) :
    ∃ c o e n g, exec (.clock m) s =
      .next { s with clkCnt := c, out := o, cdEn := e, cdCnt := n, ports := { s.ports with pgStart := g } } := by
  rcases exec_clock_cases m s with ⟨-, -, h⟩ | ⟨-, h⟩
  · exact ⟨_, _, _, _, _, h⟩
  · obtain ⟨c, o, e, n, g, hc⟩ := countClock_eq s
    exact ⟨c, o, e, n, g, by rw [h, hc]⟩

/-- Settles O20: CLOCK writes the counter, the pulse and the strobe, and each of the others one or two registers. -/
theorem dispatcherOpsFrame : Obligations.DispatcherOpsFrame := by
  intro i s t hf h
  cases i with
  | clock m =>
    obtain ⟨c, o, e, n, g, hc⟩ := exec_clock_eq m s
    rw [hc] at h
    cases h
    exact ⟨⟨rfl, rfl, rfl⟩, fun _ => rfl, ⟨rfl, rfl⟩, rfl, fun _ => rfl, fun hm => absurd rfl (hm m), fun _ _ _ => rfl,
      fun hm => absurd rfl (hm m)⟩
  | sox | start | cont | stop | ign _ =>
    cases h
    exact ⟨⟨rfl, rfl, rfl⟩, fun _ => rfl, ⟨rfl, rfl⟩, rfl, by simp [SamePulse]⟩
  | sxHdr | sxDevid | sxSub1 | sxSub2 | sxAbort _ | sxEox | sxHold _
  | setPpqn _ _ | setPw5ms _ | setPw15ms _ | dataNop _ _ _ => cases hf

/-! ## The operations that frame the command -/

/-- Settles O30: each of these operations is one write of the parser state. -/
theorem sysexOpsFrame : Obligations.SysexOpsFrame := by
  intro i s t hf h
  obtain ⟨x, hx⟩ := exec_sysex_sets_sxState_only hf s
  rw [hx] at h
  cases h
  exact ⟨⟨rfl, rfl, rfl⟩, ⟨rfl, rfl⟩, ⟨rfl, rfl, rfl⟩, fun _ => rfl, ⟨rfl, rfl⟩, rfl⟩

/-- Settles O22: the constant's row, and the mismatch row for every other id. -/
theorem onlyTheDeviceIdAdvances : Obligations.OnlyTheDeviceIdAdvances := by
  have hother : ∀ b : Byte, b ≠ 0x49#8 → decodeSysex .sawDeviceId b = some (.sxAbort b) :=
    fun _ hb => decodeSysex_of_header_mismatch rfl hb
  refine ⟨exec_sxDevid, fun b => ⟨fun h => ?_, fun h => h ▸ sxRow_sxDevid.1⟩, hother⟩
  by_contra hb
  rw [hother b hb] at h
  cases h

end Sys2Proof.Machine

/-! The data byte (41_sysex_config.md section 3): what the two setters write and leave, phase 1 by the byte's fields, and the
net effect of a byte on the parser (section 5). -/

namespace Sys2Proof.Machine

/-! ## The setters -/

/-- Settles O40, from the two cases of the range test. -/
theorem divisorIsFloor : Obligations.DivisorIsFloor :=
  fun _ => ⟨fun h => divisor_of_range h.1 h.2, divisor_out_of_range⟩

/-- Settles O33: a discarded byte leaves the common end of a data byte alone. -/
theorem dataNopDiscards : Obligations.DataNopDiscards := exec_dataNop

/-- Settles O31: in range the one named update of configuration and store, else the common end of a data byte alone. -/
theorem setPpqnApplies : Obligations.SetPpqnApplies := by
  intro x val s hwf
  rcases exec_setPpqn_cases x val s with ⟨hout, he⟩ | ⟨d, hge, hle, hd, he⟩
  · exact ⟨fun hin => absurd hin hout, fun _ => he⟩
  · refine ⟨fun _ => ⟨_, he, rfl, hd, rfl, rfl, ?_, fun a ha => ?_, ⟨rfl, rfl⟩, ⟨rfl, rfl, rfl⟩, ⟨rfl, rfl⟩, rfl⟩,
      fun hout => absurd ⟨hge, hle⟩ hout⟩
    · exact readByte_setNv_self (s := (s.setSx _).setPpqn val d) hwf rfl
    · exact readByte_setNv_other ha _ ((s.setSx _).setPpqn val d)

/-- The instruction that sets the code `k`. -/
def setWidthInstr (x : BitVec 1) : PwCode → Instr
  | .width5ms => .setPw5ms x
  | .width15ms => .setPw15ms x

theorem exec_setWidthInstr (x : BitVec 1) (k : PwCode) (s : State) :
    exec (setWidthInstr x k) s = .next (((s.setSx .awaitingTerminator).setPwCode k).setNv nvPwOffset (pwByte k)
      (Memory.put nvPwOffset (pwByte k) s.nv)) := by
  cases k with
  | width5ms => exact exec_setPw5ms x s
  | width15ms => exact exec_setPw15ms x s

/-- Both rows of SET_PW at once (41_sysex_config.md R83). -/
theorem exec_setWidthInstr_applies (x : BitVec 1) (k : PwCode) {s : State} (hwf : Memory.wf s.nv = true) :
    ∃ t, exec (setWidthInstr x k) s = .next t ∧ t.pwCode = k ∧ readByte 1 t = .ok (pwByte k) ∧
      t.ppqn = s.ppqn ∧ t.div = s.div ∧ t.sxState = .awaitingTerminator ∧
      (∀ a, a ≠ 1 → readByte a t = readByte a s) ∧ SameDivider s t ∧ SamePulse s t ∧ SameEnvironment s t ∧
      t.ports = { s.ports with nvBus := s.ports.nvBus ++ [.write 1 (pwByte k)] } := by
  refine ⟨_, exec_setWidthInstr x k s, rfl, ?_, rfl, rfl, rfl, fun a ha => ?_, ⟨rfl, rfl⟩, ⟨rfl, rfl, rfl⟩, ⟨rfl, rfl⟩, rfl⟩
  · exact readByte_setNv_self (s := (s.setSx _).setPwCode k) hwf rfl
  · exact readByte_setNv_other ha _ ((s.setSx _).setPwCode k)

/-- Settles O32: both rows are one setter at its two codes. -/
theorem setPulseWidthApplies : Obligations.SetPulseWidthApplies :=
  fun x _ hwf => ⟨exec_setWidthInstr_applies x .width5ms hwf, exec_setWidthInstr_applies x .width15ms hwf⟩

/-- Settles O35: a setter writes its own register and its own offset, and the discard neither. -/
theorem dataOpsFrame : Obligations.DataOpsFrame := by
  intro i s t hf h
  cases i with
  | setPpqn x val =>
    rcases exec_setPpqn_cases x val s with ⟨-, he⟩ | ⟨d, -, -, -, he⟩ <;> rw [he] at h <;> cases h
    · exact ⟨⟨rfl, rfl⟩, ⟨rfl, rfl, rfl⟩, ⟨rfl, rfl⟩, rfl, rfl, fun _ _ => rfl, fun _ => ⟨rfl, rfl⟩, fun _ => rfl⟩
    · exact ⟨⟨rfl, rfl⟩, ⟨rfl, rfl, rfl⟩, ⟨rfl, rfl⟩, rfl, rfl,
        fun _ ha => readByte_setNv_other (fun heq => ha (by rw [heq]; rfl)) _ ((s.setSx _).setPpqn val d),
        fun hn => absurd rfl hn, fun _ => rfl⟩
  | setPw5ms _ | setPw15ms _ =>
    simp only [exec_setPw5ms, exec_setPw15ms, Host.Outcome.next.injEq] at h
    subst h
    exact ⟨⟨rfl, rfl⟩, ⟨rfl, rfl, rfl⟩, ⟨rfl, rfl⟩, rfl, rfl,
      fun _ ha => readByte_setNv_other (fun heq => ha (by rw [heq]; rfl)) _ ((s.setSx _).setPwCode _),
      fun _ => ⟨rfl, rfl⟩, fun hn => absurd rfl hn⟩
  | dataNop x sel val =>
    cases h
    exact ⟨⟨rfl, rfl⟩, ⟨rfl, rfl, rfl⟩, ⟨rfl, rfl⟩, rfl, rfl, fun _ _ => rfl, fun _ => ⟨rfl, rfl⟩, fun _ => rfl⟩
  | sox | clock _ | start | cont | stop | ign _
  | sxHdr | sxDevid | sxSub1 | sxSub2 | sxAbort _ | sxEox | sxHold _ => cases hf

/-! ## Phase 1 in the data slot -/

/-- The three classes of the data byte, with the selector as the pulse-width code (D17). -/
theorem decodeData_classes (c : Byte) :
    (((dataSel c).toNat = 0 ∧ 1 ≤ (dataVal c).toNat ∧ (dataVal c).toNat ≤ 24) ∧
      decodeData c = .setPpqn (dataX c) (dataVal c)) ∨
    (∃ k, (dataVal c).toNat = 31 ∧ (dataSel c).toNat = (pwByte k).toNat ∧ decodeData c = setWidthInstr (dataX c) k) ∨
    (¬((dataSel c).toNat = 0 ∧ 1 ≤ (dataVal c).toNat ∧ (dataVal c).toNat ≤ 24) ∧
      ¬((dataVal c).toNat = 31 ∧ ((dataSel c).toNat = 1 ∨ (dataSel c).toNat = 2)) ∧
      decodeData c = .dataNop (dataX c) (dataSel c) (dataVal c)) := by
  rw [← ppqnShape_iff, ← pulseWidthShape_iff, Bool.not_eq_true, Bool.not_eq_true]
  rcases decodeData_cases c with ⟨hp, h⟩ | ⟨hval, hsel, h⟩ | ⟨hval, hsel, h⟩ | h
  · exact .inl ⟨hp, h⟩
  · exact .inr (.inl ⟨.width5ms, hval, hsel, h⟩)
  · exact .inr (.inl ⟨.width15ms, hval, hsel, h⟩)
  · exact .inr (.inr h)

/-- Settles O34: the class of the byte selects the setter, whose effects are those of O31 and O32. -/
theorem dataByteStep : Obligations.DataByteStep := by
  intro s c hs hwf sel val
  have hsel : (dataSel c).toNat = sel := dataSel_toNat c
  have hval : (dataVal c).toNat = val := dataVal_toNat c
  have hclasses := decodeData_classes c
  rw [hsel, hval] at hclasses
  rw [hs, decodeSysex_appliedChange, offer_some]
  rcases hclasses with ⟨hp, h⟩ | ⟨k, hv, hk, h⟩ | ⟨hp, hw, h⟩ <;> rw [h]
  · have hbyte : (dataVal c).setWidth 8 = BitVec.ofNat 8 val := by rw [← hval, BitVec.ofNat_toNat]
    obtain ⟨t, ht, hq, hd, hpw, hx, h0, ha, -, -, -, hports⟩ :=
      (setPpqnApplies (dataX c) (dataVal c) s hwf).1 (hval ▸ hp.2)
    refine ⟨t, ht, hx, fun _ => ⟨hq ▸ hval, hval ▸ hd, hpw, hbyte ▸ h0, ha, ?_⟩, fun hw => ?_, fun hn => absurd hp hn⟩
    · rw [hports, hbyte]
    · omega
  · have hbyte : pwByte k = BitVec.ofNat 8 sel := by rw [hk, BitVec.ofNat_toNat, BitVec.setWidth_eq]
    obtain ⟨t, ht, hpw, h1, hq, hd, hx, ha, -, -, -, hports⟩ := exec_setWidthInstr_applies (dataX c) k hwf
    refine ⟨t, ht, hx, fun hp => ?_, fun _ => ⟨?_, ?_, hq, hd, hbyte ▸ h1, ha, ?_⟩, fun _ hn => ?_⟩
    · omega
    · cases k <;> simp [hpw, hk, pwByte]
    · cases k <;> simp [hpw, hk, pwByte]
    · rw [hports, hbyte]
    · cases k <;> simp [hv, hk, pwByte] at hn
  · exact ⟨_, exec_dataNop _ _ _ s, rfl, fun hp' => absurd hp' hp, fun hw' => absurd hw' hw, fun _ _ => rfl⟩

/-! ## The net effect of a byte on the parser (41_sysex_config.md R88) -/

theorem netSx_of_header_mismatch {sx : SxState} {e b : Byte} (he : sx.headerByte? = some e) (hb : b ≠ e)
    (hF0 : b ≠ 0xF0#8) : netSx sx b = .idle := by
  cases sx with
  | idle | appliedChange | awaitingTerminator => cases he
  | sawUniversalHeader | sawDeviceId | sawSubId1 | sawSubId2 => cases he; simp [netSx, hb, hF0]

theorem sxRow_of_header {sx : SxState} {e : Byte} (he : sx.headerByte? = some e) : ∃ i, SxRow sx e i (netSx sx e) := by
  cases sx with
  | idle | appliedChange | awaitingTerminator => cases he
  | sawUniversalHeader => cases he; exact ⟨_, sxRow_sxHdr⟩
  | sawDeviceId => cases he; exact ⟨_, sxRow_sxDevid⟩
  | sawSubId1 => cases he; exact ⟨_, sxRow_sxSub1⟩
  | sawSubId2 => cases he; exact ⟨_, sxRow_sxSub2⟩

/-- Outside `Idle` each byte but SOX has its row, and the row's next state is the table's. -/
theorem sxRow_netSx {sx : SxState} {b : Byte} (hi : sx ≠ .idle) (hF0 : b ≠ 0xF0#8) : ∃ i, SxRow sx b i (netSx sx b) := by
  rcases headerByte_or_rest sx with ⟨e, he⟩ | rfl | rfl | rfl
  · by_cases hb : b = e
    · exact hb ▸ sxRow_of_header he
    · rw [netSx_of_header_mismatch he hb hF0]
      exact ⟨_, sxRow_sxAbort he hb⟩
  · exact absurd rfl hi
  · exact ⟨_, by simpa [netSx, hF0] using sxRow_data b⟩
  · by_cases hb : b = 0xF7#8
    · exact hb ▸ ⟨_, sxRow_sxEox⟩
    · exact ⟨_, by simpa [netSx, hF0, hb] using sxRow_sxHold hb⟩

/-- Phase 1 moves the parser as the table says, for every byte but SOX's, whose move is made in phase 2. -/
theorem offer_netSx {b : Byte} (hF0 : b ≠ 0xF0#8) (s : State) :
    ∃ t, offer (decodeSysex s.sxState b) s = .next t ∧ t.sxState = netSx s.sxState b := by
  by_cases hi : s.sxState = .idle
  · exact ⟨s, by rw [hi]; rfl, by simp [hi, netSx, hF0]⟩
  · obtain ⟨i, hdec, hrow⟩ := sxRow_netSx hi hF0
    rw [hdec]
    exact hrow s rfl

/-- Where phase 1 writes the parser state alone, the table says what it writes. -/
theorem offer_eq_setSx_netSx {b : Byte} {s : State} (hF0 : b ≠ 0xF0#8)
    (h : ∃ y, offer (decodeSysex s.sxState b) s = .next (s.setSx y)) :
    offer (decodeSysex s.sxState b) s = .next (s.setSx (netSx s.sxState b)) := by
  obtain ⟨y, hy⟩ := h
  obtain ⟨t, ht, hsx⟩ := offer_netSx hF0 s
  rw [hy] at ht
  cases ht
  rw [hy, ← hsx]
  rfl

/-- Settles O28: SOX has the last word; every other byte is moved in phase 1 and left there by phase 2. -/
theorem parserFollowsNetTable : Obligations.ParserFollowsNetTable := by
  intro s b m rest h
  by_cases hb : b = 0xF0#8
  · subst hb
    exact ⟨_, step_sox h, rfl⟩
  · obtain ⟨u, hu, hsx⟩ := offer_netSx hb (s.enterStep rest)
    obtain ⟨t, ht, hkeep⟩ := exec_dispatcher_keeps_sxState (decodeDispatch_format m b) (decodeDispatch_ne_sox hb m) u
    rw [State.enterStep_sxState] at hu hsx
    exact ⟨t, by rw [step_byte h, hu, andThen_next, ht], hkeep.trans hsx⟩

/-- A real-time byte (40_realtime_dispatch.md section 4). -/
def RealTime (b : Byte) : Prop := b = 0xF8#8 ∨ b = 0xFA#8 ∨ b = 0xFB#8 ∨ b = 0xFC#8

/-- A real-time byte is discarded in the data slot, so phase 1 writes the parser state alone. -/
theorem byteStep_of_realTime {b : Byte} (hb : RealTime b) (m : Mode) (s : State) :
    byteStep b m s = exec (decodeDispatch m b) (s.setSx (netSx s.sxState b)) := by
  have hF0 : b ≠ 0xF0#8 := by rcases hb with rfl | rfl | rfl | rfl <;> decide
  have hdiscard : ∃ val, decodeData b = .dataNop 1#1 3#2 val := by
    rcases hb with rfl | rfl | rfl | rfl <;> exact ⟨_, rfl⟩
  obtain ⟨val, hval⟩ := hdiscard
  have hphase1 := offer_eq_setSx_netSx hF0 (offer_sets_sxState_only hval s.sxState s)
  simp only [byteStep, decode, hphase1, andThen_next]

/-- Settles O29: phase 1 leaves the table's parser state and nothing else to phase 2. -/
theorem realTimeBytesActOnBothPaths : Obligations.RealTimeBytesActOnBothPaths := by
  intro s b m rest hb h
  rw [← feed_self h, step_perform]
  exact byteStep_of_realTime hb m (s.enterStep rest)

/-- Settles O38: outside the data slot phase 1 writes the parser state alone, and phase 2 keeps configuration and store. -/
theorem noPartialApplication : Obligations.NoPartialApplication := by
  intro s b m rest hs h
  obtain ⟨y, hy⟩ := offer_of_not_data hs b (s.enterStep rest)
  obtain ⟨t, ht⟩ := exec_completes (decodeDispatch m b) ((s.enterStep rest).setSx y)
  obtain ⟨hcfg, hstore, -, hbus, -⟩ := dispatcherOpsFrame _ _ t (decodeDispatch_format m b) ht
  exact ⟨t, by rw [step_byte h, hy, andThen_next, ht], hcfg, hstore, hbus⟩

/-- An operation makes at most one store access, a write. -/
theorem exec_nvBus {i : Instr} {s t : State} (h : exec i s = .next t) :
    t.ports.nvBus = s.ports.nvBus ∨ ∃ a v, t.ports.nvBus = s.ports.nvBus ++ [.write a v] := by
  cases hf : i.format with
  | D => exact .inl (exec_dispatcher_nvBus hf h)
  | S =>
    obtain ⟨x, hx⟩ := exec_sysex_sets_sxState_only hf s
    rw [hx] at h
    cases h
    exact .inl rfl
  | X =>
    cases i with
    | setPpqn x val =>
      rcases exec_setPpqn_cases x val s with ⟨-, he⟩ | ⟨d, -, -, -, he⟩ <;> rw [he] at h <;> cases h
      · exact .inl rfl
      · exact .inr ⟨_, _, rfl⟩
    | setPw5ms x => rw [exec_setPw5ms] at h; cases h; exact .inr ⟨_, _, rfl⟩
    | setPw15ms x => rw [exec_setPw15ms] at h; cases h; exact .inr ⟨_, _, rfl⟩
    | dataNop x sel val => cases h; exact .inl rfl
    | sox | clock _ | start | cont | stop | ign _
    | sxHdr | sxDevid | sxSub1 | sxSub2 | sxAbort _ | sxEox | sxHold _ => cases hf

theorem offer_nvBus {i : Option Instr} {s t : State} (h : offer i s = .next t) :
    t.ports.nvBus = s.ports.nvBus ∨ ∃ a v, t.ports.nvBus = s.ports.nvBus ++ [.write a v] := by
  cases i with
  | none => cases h; exact .inl rfl
  | some i => exact exec_nvBus h

/-- Settles O39: of the two phases only the first can access the store, and a tick touches no port. -/
theorem atMostOneStoreWritePerByte : Obligations.AtMostOneStoreWritePerByte := by
  refine fun s t hst => ⟨fun b m rest h => ?_, fun rest h => ?_⟩
  · rw [step_byte h] at hst
    obtain ⟨u, hu, ht⟩ := andThen_cases hst
    rw [exec_dispatcher_nvBus (decodeDispatch_format m b) ht]
    exact offer_nvBus hu
  · rw [step_tick h] at hst
    cases hst
    exact congrArg Ports.nvBus (tick_ports (s.enterStep rest))

end Sys2Proof.Machine

/-! Runs over a schedule: the configuration command byte by byte (30_encoding.md section 5), and the parser's lock-out
(41_sysex_config.md section 4). -/

namespace Sys2Proof.Machine

/-! ## Runs -/

/-- A property of the state and of the steps still to come that each step keeps holds after the first part of a run. -/
theorem runOn_append_of_steps {P : List Input → State → Prop}
    (hstep : ∀ e es rest s, P (e :: es) s → ∃ t, step (s.feed (e :: rest)) = .next t ∧ P es t) (es fs : List Input)
    (s : State) (h : P es s) : ∃ t, runOn (es ++ fs) s = runOn fs t ∧ P [] t := by
  induction es generalizing s with
  | nil => exact ⟨s, rfl, h⟩
  | cons e es ih =>
    obtain ⟨u, hu, hP⟩ := hstep e es (es ++ fs) s h
    obtain ⟨t, ht, hPt⟩ := ih u hP
    exact ⟨t, by rw [List.cons_append, runOn_cons, hu, andThen_next, ht], hPt⟩

theorem runOn_of_steps {P : List Input → State → Prop}
    (hstep : ∀ e es rest s, P (e :: es) s → ∃ t, step (s.feed (e :: rest)) = .next t ∧ P es t) (es : List Input)
    (s : State) (h : P es s) : ∃ t, runOn es s = .next (t.feed []) ∧ P [] t := by
  obtain ⟨t, ht, hP⟩ := runOn_append_of_steps hstep es [] s h
  exact ⟨t, by rw [← List.append_nil es, ht, runOn_nil], hP⟩

theorem runOn_singleton (e : Input) (s : State) : runOn [e] s = step (s.feed [e]) := by
  rw [runOn_cons]
  cases h : step (s.feed [e]) with
  | next t =>
    have hin : t.inputs = [] := (step_env h).2
    rw [andThen_next, runOn_nil, feed_self hin]
  | fault r => rfl
  | refused r => rfl

/-! ## The configuration command -/

theorem runOn_cons_sox (m : Mode) (es : List Input) (s : State) :
    runOn (.byte 0xF0#8 m :: es) s = runOn es ((s.enterStep es).setSx .sawUniversalHeader) := by
  rw [runOn_cons, step_sox rfl, andThen_next]
  rfl

/-- Outside the data slot a byte that the dispatcher path ignores moves the parser alone. -/
theorem step_of_moving_byte {s : State} {b : Byte} {m : Mode} {rest : List Input} (hs : s.sxState ≠ .appliedChange)
    (hb : NotOpcode b) (h : s.inputs = .byte b m :: rest) :
    step s = .next ((s.enterStep rest).setSx (netSx s.sxState b)) := by
  have hphase1 := offer_eq_setSx_netSx (s := s.enterStep rest) hb.1 (offer_of_not_data hs b _)
  rw [State.enterStep_sxState] at hphase1
  rw [step_byte h, hphase1, andThen_next, decodeDispatch_of_notOpcode hb, exec_ign]

theorem runOn_cons_moving_byte {s : State} {b : Byte} (hs : s.sxState ≠ .appliedChange) (hb : NotOpcode b) (m : Mode)
    (es : List Input) : runOn (.byte b m :: es) s = runOn es ((s.enterStep es).setSx (netSx s.sxState b)) := by
  rw [runOn_cons, step_of_moving_byte (s := s.feed (.byte b m :: es)) hs hb rfl, andThen_next]
  rfl

/-- One header byte of the command: the parser goes from `x` to `y`. -/
theorem runOn_cons_header_byte {x y : SxState} {b : Byte} (hx : x ≠ .appliedChange) (hb : NotOpcode b)
    (hy : netSx x b = y) (m : Mode) (es es' : List Input) (s : State) :
    runOn (.byte b m :: es) ((s.enterStep es').setSx x) = runOn es ((s.enterStep es).setSx y) := by
  subst hy
  exact runOn_cons_moving_byte (s := (s.enterStep es').setSx x) hx hb m es

/-- The command's first five bytes take the parser from every state to the data slot and change nothing else. -/
theorem runOn_command_header (s : State) (m0 m1 m2 m3 m4 : Mode) (es : List Input) :
    runOn (.byte 0xF0#8 m0 :: .byte 0x7E#8 m1 :: .byte 0x49#8 m2 :: .byte 0x0B#8 m3 :: .byte 0x02#8 m4 :: es) s =
      runOn es ((s.enterStep es).setSx .appliedChange) := by
  have hheader : NotOpcode 0x7E#8 ∧ NotOpcode 0x49#8 ∧ NotOpcode 0x0B#8 ∧ NotOpcode 0x02#8 := by
    unfold NotOpcode
    decide
  obtain ⟨h7E, h49, h0B, h02⟩ := hheader
  rw [runOn_cons_sox,
    runOn_cons_header_byte (x := .sawUniversalHeader) (y := .sawDeviceId) nofun h7E rfl,
    runOn_cons_header_byte (x := .sawDeviceId) (y := .sawSubId1) nofun h49 rfl,
    runOn_cons_header_byte (x := .sawSubId1) (y := .sawSubId2) nofun h0B rfl,
    runOn_cons_header_byte (x := .sawSubId2) (y := .appliedChange) nofun h02 rfl]

/-- In the data slot a byte that changes the configuration is the setter's operation and nothing else. -/
theorem step_of_accepted_data {s : State} {c : Byte} {m : Mode} {rest : List Input} (hs : s.sxState = .appliedChange)
    (hc : ∀ x sel val, decodeData c ≠ .dataNop x sel val) (h : s.inputs = .byte c m :: rest) :
    step s = exec (decodeData c) (s.enterStep rest) := by
  have hd : decodeSysex s.sxState c = some (decodeData c) := by rw [hs, decodeSysex_appliedChange]
  obtain ⟨u, hu⟩ := exec_completes (decodeData c) (s.enterStep rest)
  rw [step_byte_of_offered h hd hu, decodeDispatch_of_notOpcode (notOpcode_of_accepted hc), exec_ign, hu]

/-- The command's first six bytes, with an accepted data byte: the setter's operation on the state in the data slot. -/
theorem runOn_command {c : Byte} (hc : ∀ x sel val, decodeData c ≠ .dataNop x sel val) (s : State)
    (m0 m1 m2 m3 m4 m5 : Mode) :
    runOn [.byte 0xF0#8 m0, .byte 0x7E#8 m1, .byte 0x49#8 m2, .byte 0x0B#8 m3, .byte 0x02#8 m4, .byte c m5] s =
      exec (decodeData c) ((s.enterStep []).setSx .appliedChange) := by
  rw [runOn_command_header, runOn_singleton, step_of_accepted_data (rest := []) rfl hc rfl]
  rfl

theorem decodeData_ofNat {n : Nat} (h1 : 1 ≤ n) (h24 : n ≤ 24) :
    decodeData (BitVec.ofNat 8 n) = .setPpqn 0#1 (BitVec.ofNat 5 n) := by
  have hn : (BitVec.ofNat 8 n).toNat = n := by simp; omega
  have := (dataByteClasses (BitVec.ofNat 8 n)).1 (by omega)
  have hx : n / 128 = 0 := by omega
  have hval : n % 32 = n := by omega
  rwa [hn, hx, hval] at this

/-- Settles O36: five bytes to the data slot, SET_PPQN there, and a terminator that moves the parser alone. -/
theorem ppqnCommandAppliesAtDataByte : Obligations.PpqnCommandAppliesAtDataByte := by
  intro s n m0 m1 m2 m3 m4 m5 m6 hwf h1 h24
  have hdec := decodeData_ofNat h1 h24
  have hn : (BitVec.ofNat 5 n).toNat = n := by simp; omega
  have hbyte : (BitVec.ofNat 5 n).setWidth 8 = BitVec.ofNat 8 n := by rw [← BitVec.ofNat_toNat, hn]
  obtain ⟨t, ht, hq, hd, hpw, hsx, h0, ha, hdiv, hpulse, -, -⟩ :=
    (setPpqnApplies 0#1 (BitVec.ofNat 5 n) ((s.enterStep []).setSx .appliedChange) hwf).1 (by omega)
  refine ⟨t, ?_, hq ▸ hn, hn ▸ hd, hbyte ▸ h0, hsx, hpw, ha, hdiv, hpulse, ?_⟩
  · rw [runOn_command (by simp [hdec]), hdec, ht]
  · rw [runOn_cons_moving_byte (by simp [hsx]) notOpcode_terminator, hsx]
    rfl

/-- Settles O37: as for PPQN, with SET_PW in the data slot. -/
theorem pulseWidthCommandAppliesAtDataByte : Obligations.PulseWidthCommandAppliesAtDataByte := by
  intro s c k m0 m1 m2 m3 m4 m5 hwf hc
  have hdec : ∃ x, decodeData c = setWidthInstr x k := by
    rcases hc with ⟨rfl, rfl | rfl⟩ | ⟨rfl, rfl | rfl⟩ <;> exact ⟨_, rfl⟩
  obtain ⟨x, hdec⟩ := hdec
  have haccepted : ∀ x' sel val, decodeData c ≠ .dataNop x' sel val := by
    rw [hdec]
    cases k <;> exact nofun
  obtain ⟨t, ht, hpw, h1, hq, hd, hsx, ha, hdiv, hpulse, -, -⟩ :=
    exec_setWidthInstr_applies x k (s := (s.enterStep []).setSx .appliedChange) hwf
  exact ⟨t, by rw [runOn_command haccepted, hdec, ht], hpw, h1, hsx, hq, hd, ha, hdiv, hpulse⟩

/-! ## The lock-out -/

theorem SameConfig.refl (s : State) : SameConfig s s := ⟨rfl, rfl, rfl⟩

theorem SameConfig.trans {s t u : State} (h : SameConfig s t) (k : SameConfig t u) : SameConfig s u := by
  obtain ⟨hp, hw, hd⟩ := h
  obtain ⟨kp, kw, kd⟩ := k
  exact ⟨kp.trans hp, kw.trans hw, kd.trans hd⟩

theorem SameStore.trans {s t u : State} (h : SameStore s t) (k : SameStore t u) : SameStore s u :=
  fun a => (k a).trans (h a)

/-- What a tick can change: the pulse. -/
theorem tick_eq (s : State) : ∃ o e n, tick s = { s with out := o, cdEn := e, cdCnt := n } := by
  rcases tick_cases s with ⟨-, h⟩ | ⟨-, -, h⟩ | ⟨-, -, h⟩
  · exact ⟨_, _, _, h⟩
  · exact ⟨_, _, _, h⟩
  · exact ⟨_, _, _, h⟩

/-- Settles O48: a tick writes the line and the countdown only. -/
theorem tickTouchesOnlyThePulse : Obligations.TickTouchesOnlyThePulse := by
  intro s rest h
  obtain ⟨o, e, n, ht⟩ := tick_eq (s.enterStep rest)
  refine ⟨_, step_tick h, ?_⟩
  rw [ht]
  exact ⟨⟨rfl, rfl, rfl⟩, ⟨rfl, rfl⟩, rfl, fun _ => rfl⟩

/-- A step of the schedules that lock the parser out. -/
def HeldOut (e : Input) : Prop := e = .tick ∨ ∃ b m, e = .byte b m ∧ b ≠ 0xF7#8 ∧ b ≠ 0xF0#8

/-- One step of the lock-out. -/
theorem step_heldOut {s : State} {e : Input} {rest : List Input} (hs : s.sxState = .awaitingTerminator)
    (he : HeldOut e) (h : s.inputs = e :: rest) :
    ∃ t, step s = .next t ∧ t.sxState = .awaitingTerminator ∧ SameConfig s t ∧ SameStore s t := by
  rcases he with rfl | ⟨b, m, rfl, hF7, hF0⟩
  · obtain ⟨t, ht, hcfg, -, hsx, hstore⟩ := tickTouchesOnlyThePulse s rest h
    exact ⟨t, ht, hsx.trans hs, hcfg, hstore⟩
  · obtain ⟨t, ht, hcfg, hstore, -⟩ := noPartialApplication s b m rest (by simp [hs]) h
    obtain ⟨t', ht', hsx⟩ := parserFollowsNetTable s b m rest h
    rw [ht] at ht'
    cases ht'
    exact ⟨t, ht, by simp [hsx, hs, netSx, hF7, hF0], hcfg, hstore⟩

/-- What the lock-out keeps of the state `s`, with the steps `es` still to come. -/
def LockedOut (s : State) (es : List Input) (u : State) : Prop :=
  u.sxState = .awaitingTerminator ∧ SameConfig s u ∧ SameStore s u ∧ ∀ e ∈ es, HeldOut e

theorem step_keeps_lockedOut (s : State) (e : Input) (es rest : List Input) (u : State) (h : LockedOut s (e :: es) u) :
    ∃ t, step (u.feed (e :: rest)) = .next t ∧ LockedOut s es t := by
  obtain ⟨hu, hcfg, hstore, hall⟩ := h
  obtain ⟨he, hes⟩ := List.forall_mem_cons.1 hall
  obtain ⟨t, ht, hsx, htcfg, htstore⟩ := step_heldOut (s := u.feed (e :: rest)) hu he rfl
  exact ⟨t, ht, hsx, hcfg.trans htcfg, hstore.trans htstore, hes⟩

/-- Settles O26: every step of the schedule keeps the lock-out. -/
theorem parserLockedOutUntilTerminatorOrSox : Obligations.ParserLockedOutUntilTerminatorOrSox := by
  intro es s hs hes
  obtain ⟨t, ht, hsx, hcfg, hstore, -⟩ :=
    runOn_of_steps (step_keeps_lockedOut s) es s ⟨hs, SameConfig.refl s, fun _ => rfl, hes⟩
  exact ⟨_, ht, hsx, hcfg, hstore⟩

end Sys2Proof.Machine

/-! The divider and the pulse over a run (40_realtime_dispatch.md section 3, 42_pulse_generator.md): a Clock byte counts one
modulo the divisor, a countdown in progress is touched by ticks alone, and `pg_start` marks the rising edges. -/

namespace Sys2Proof.Machine

/-! ## The divider over a run -/

/-- A Clock byte adds one to the counter modulo the divisor if it passes the gate, and nothing if it does not. -/
theorem exec_clock_counts (m : Mode) {s : State} (hcnt : s.clkCnt.toNat < s.div.toNat) (hdiv : s.div.toNat ≤ 24) :
    ∃ t, exec (.clock m) s = .next t ∧ t.div = s.div ∧ t.running = s.running ∧
      t.clkCnt.toNat = (s.clkCnt.toNat + (clockCounted m s.running).toNat) % s.div.toNat := by
  rcases exec_clock_cases m s with ⟨hm, hr, he⟩ | ⟨hg, he⟩
  · have hc : clockCounted m s.running = false := by rw [hm, hr]; rfl
    exact ⟨s, he, rfl, rfl, by simp [hc, Nat.mod_eq_of_lt hcnt]⟩
  · have hc : clockCounted m s.running = true := by
      rcases hg with rfl | hr
      · rfl
      · rw [hr]; cases m <;> rfl
    obtain ⟨c, o, e, n, g, heq⟩ := countClock_eq s
    refine ⟨_, he, by rw [heq], by rw [heq], ?_⟩
    rw [hc, Bool.toNat_true]
    rcases countClock_cases s with ⟨hle, h⟩ | ⟨hlt, h⟩ <;> rw [h]
    · have hfull : s.clkCnt.toNat + 1 = s.div.toNat := by omega
      simp [hfull]
    · rw [Nat.mod_eq_of_lt hlt]
      simp [BitVec.toNat_add]
      omega

theorem countedClocks_tick (r : Bool) (es : List Input) : countedClocks r (.tick :: es) = countedClocks r es := by
  simp [countedClocks]

theorem countedClocks_clock (r : Bool) (m : Mode) (es : List Input) :
    countedClocks r (.byte 0xF8#8 m :: es) = countedClocks r es + (clockCounted m r).toNat := by
  cases h : clockCounted m r <;> simp [countedClocks, h]

/-- The divider's law over the steps `es` still to come, for a divisor `d`, the transport flag `r` and the total `n` of
counted Clocks: what the counter holds and what is still to be counted stays the same modulo the divisor. -/
def CountsModulo (d : BitVec 5) (r : Bool) (n : Nat) (es : List Input) (u : State) : Prop :=
  (∀ e ∈ es, e = .tick ∨ ∃ m, e = .byte 0xF8#8 m) ∧ u.div = d ∧ u.running = r ∧ u.clkCnt.toNat < d.toNat ∧
    (u.clkCnt.toNat + countedClocks r es) % d.toNat = n % d.toNat

theorem step_keeps_countsModulo {d : BitVec 5} (hd : d.toNat ≤ 24) (r : Bool) (n : Nat) (e : Input)
    (es rest : List Input) (u : State) (h : CountsModulo d r n (e :: es) u) :
    ∃ t, step (u.feed (e :: rest)) = .next t ∧ CountsModulo d r n es t := by
  obtain ⟨hall, rfl, rfl, hlt, hmod⟩ := h
  obtain ⟨he, hes⟩ := List.forall_mem_cons.1 hall
  rcases he with rfl | ⟨m, rfl⟩
  · obtain ⟨o, c, k, ht⟩ := tick_eq (u.enterStep rest)
    refine ⟨_, step_tick rfl, ?_⟩
    rw [countedClocks_tick] at hmod
    change CountsModulo u.div u.running n es (tick (u.enterStep rest))
    rw [ht]
    exact ⟨hes, rfl, rfl, hlt, hmod⟩
  · obtain ⟨t, ht, htd, htr, htc⟩ :=
      exec_clock_counts m (s := (u.enterStep rest).setSx (netSx u.sxState 0xF8#8)) hlt hd
    simp only [State.setSx_clkCnt, State.setSx_running, State.setSx_div, State.enterStep_clkCnt,
      State.enterStep_running, State.enterStep_div] at htd htr htc
    refine ⟨t, (byteStep_of_realTime (.inl rfl) m (u.enterStep rest)).trans ht, hes, htd, htr, ?_, ?_⟩
    · exact htc ▸ Nat.mod_lt _ (by omega)
    · rw [countedClocks_clock] at hmod
      rw [← hmod, htc, Nat.mod_add_mod, Nat.add_assoc, Nat.add_comm (countedClocks u.running es)]

/-- The next count reaches the divisor exactly when it completes a multiple. -/
theorem dvd_succ_iff_mod {d n : Nat} (hd : 0 < d) : d ∣ n + 1 ↔ n % d + 1 = d := by
  have hlt := Nat.mod_lt n hd
  have hmod : (n + 1) % d = (n % d + 1) % d := (Nat.mod_add_mod n d 1).symm
  rw [Nat.dvd_iff_mod_eq_zero, hmod]
  constructor
  · intro h
    by_contra hne
    rw [Nat.mod_eq_of_lt (by omega)] at h
    omega
  · intro h
    rw [h, Nat.mod_self]

/-- Settles O41, by induction on the schedule; the last clause is the compare at the division boundary. -/
theorem everyDivthClockFires : Obligations.EveryDivthClockFires := by
  intro es s hcnt hdiv hes
  obtain ⟨t, ht, -, htd, htr, hlt, hmod⟩ :=
    runOn_of_steps (step_keeps_countsModulo hdiv s.running (s.clkCnt.toNat + countedClocks s.running es)) es s
      ⟨hes, rfl, rfl, hcnt, rfl⟩
  have hclk : t.clkCnt.toNat = (s.clkCnt.toNat + countedClocks s.running es) % s.div.toNat := by
    rw [← hmod, Nat.mod_eq_of_lt (by simpa [countedClocks] using hlt)]
    rfl
  refine ⟨_, ht, htd, htr, hclk, fun m hg => ?_⟩
  have hpos : 0 < s.div.toNat := by omega
  rw [dvd_succ_iff_mod hpos, ← hclk, exec_clock_of_counted (by simpa [htr] using hg)]
  refine ⟨fun hfull => ?_, fun hnot => ?_⟩
  · rw [countClock_of_boundary (by simp [htd, hfull])]
    rfl
  · rw [countClock_of_below (by simp [htd]; omega)]
    rfl

/-! ## The countdown -/

/-- Settles O43, from the two cases of `fire` and the load values. -/
theorem fireIsNonRetriggerable : Obligations.FireIsNonRetriggerable :=
  fun s => ⟨fire_busy, fire_idle, rfl, pulseTicks_pos s.timebase .width5ms⟩

theorem tick_idle {s : State} (h : s.cdEn = false) : tick s = s := by
  rcases tick_cases s with ⟨-, ht⟩ | ⟨hb, -, -⟩ | ⟨hb, -, -⟩
  · exact ht
  · simp [h] at hb
  · simp [h] at hb

/-- A tick in the middle of a countdown. -/
theorem tick_counting {s : State} {n : Nat} (h : s.cdEn = true) (hn : s.cdCnt = n + 2) : tick s = s.setCdCnt (n + 1) := by
  rcases tick_cases s with ⟨hi, -⟩ | ⟨-, -, ht⟩ | ⟨-, h0, -⟩
  · simp [h] at hi
  · rw [ht, hn]
    rfl
  · simp [hn] at h0

/-- The tick that ends a countdown. -/
theorem tick_expiring {s : State} (h : s.cdEn = true) (hn : s.cdCnt = 1) : tick s = (s.setCdCnt 0).lowerLine := by
  rcases tick_cases s with ⟨hi, -⟩ | ⟨-, h0, -⟩ | ⟨-, -, ht⟩
  · simp [h] at hi
  · simp [hn, countDown] at h0
  · exact ht

/-- Settles O44: idle, in the middle of a countdown, and at its last tick. -/
theorem tickCountsDownAndExpires : Obligations.TickCountsDownAndExpires := by
  intro s rest h
  rw [step_tick h]
  refine ⟨fun hi => ?_, fun hb hn => ?_, fun hb hn => ?_⟩
  · rw [tick_idle (by simpa using hi)]
    rfl
  · obtain ⟨n, hn⟩ := Nat.exists_eq_add_of_le' hn
    rw [tick_counting (n := n) (by simpa using hb) (by simpa using hn), hn]
    rfl
  · rw [tick_expiring (by simpa using hb) (by simpa using hn)]
    rfl

/-! ## What a byte does to the pulse -/

/-- The line, the countdown and the strobe are as before. -/
def KeepsPulse (s t : State) : Prop := SamePulse s t ∧ t.ports.pgStart = s.ports.pgStart

/-- From an idle line, a pulse of full length begins, with the strobe. -/
def StartsPulse (s t : State) : Prop :=
  s.cdEn = false ∧ t.out = true ∧ t.cdEn = true ∧ t.cdCnt = pulseTicks s.timebase s.pwCode ∧ t.ports.pgStart = true

theorem KeepsPulse.refl (s : State) : KeepsPulse s s := ⟨⟨rfl, rfl, rfl⟩, rfl⟩

theorem countClock_pulse (s : State) : KeepsPulse s (countClock s) ∨ StartsPulse s (countClock s) := by
  rcases countClock_cases s with ⟨-, h⟩ | ⟨-, h⟩ <;> rw [h]
  · rcases fire_cases s with ⟨-, hf⟩ | ⟨hidle, hf⟩ <;> rw [hf]
    · exact .inl ⟨⟨rfl, rfl, rfl⟩, rfl⟩
    · exact .inr ⟨hidle, rfl, rfl, rfl, rfl⟩
  · exact .inl ⟨⟨rfl, rfl, rfl⟩, rfl⟩

theorem exec_dispatcher_pulse {i : Instr} {s t : State} (hf : i.format = .D) (h : exec i s = .next t) :
    KeepsPulse s t ∨ StartsPulse s t := by
  by_cases hc : ∃ m, i = .clock m
  · obtain ⟨m, rfl⟩ := hc
    rcases exec_clock_cases m s with ⟨-, -, he⟩ | ⟨-, he⟩ <;> rw [he] at h <;> cases h
    · exact .inl (KeepsPulse.refl s)
    · exact countClock_pulse s
  · obtain ⟨-, -, -, -, -, -, -, hp⟩ := dispatcherOpsFrame i s t hf h
    obtain ⟨hpulse, hports⟩ := hp (fun m hm => hc ⟨m, hm⟩)
    exact .inl ⟨hpulse, congrArg Ports.pgStart hports⟩

/-- The operations of the SysEx path and of the data slot do not touch the pulse. -/
theorem exec_sysex_keeps_pulse {i : Instr} {s t : State} (hf : i.format ≠ .D) (h : exec i s = .next t) :
    KeepsPulse s t := by
  cases hf' : i.format with
  | D => exact absurd hf' hf
  | S =>
    obtain ⟨-, -, hpulse, -, -, hports⟩ := sysexOpsFrame i s t hf' h
    exact ⟨hpulse, congrArg Ports.pgStart hports⟩
  | X =>
    obtain ⟨-, hpulse, -, -, hpg, -⟩ := dataOpsFrame i s t hf' h
    exact ⟨hpulse, hpg⟩

theorem exec_pulse {i : Instr} {s t : State} (h : exec i s = .next t) : KeepsPulse s t ∨ StartsPulse s t := by
  by_cases hf : i.format = .D
  · exact exec_dispatcher_pulse hf h
  · exact .inl (exec_sysex_keeps_pulse hf h)

theorem offer_keeps_pulse {b : Byte} {s u : State} (h : offer (decodeSysex s.sxState b) s = .next u) : KeepsPulse s u := by
  cases hd : decodeSysex s.sxState b with
  | none =>
    rw [hd] at h
    cases h
    exact KeepsPulse.refl s
  | some i =>
    rw [hd] at h
    obtain ⟨hf, -⟩ := decodeSysex_sound (c := ⟨s.sxState, .low⟩) hd
    exact exec_sysex_keeps_pulse hf h

/-- A byte leaves the pulse alone or starts one from an idle line; none ends one. -/
theorem byteStep_pulse {b : Byte} {m : Mode} {s t : State} (h : byteStep b m s = .next t) :
    KeepsPulse s t ∨ s.cdEn = false ∧ t.out = true ∧ t.ports.pgStart = true := by
  obtain ⟨u, hu, ht⟩ := andThen_cases h
  obtain ⟨⟨ho, he, hn⟩, hpg⟩ := offer_keeps_pulse hu
  rcases exec_dispatcher_pulse (decodeDispatch_format m b) ht with ⟨⟨hto, hte, htn⟩, htpg⟩ | ⟨hidle, hto, -, -, htpg⟩
  · exact .inl ⟨⟨hto.trans ho, hte.trans he, htn.trans hn⟩, htpg.trans hpg⟩
  · exact .inr ⟨he ▸ hidle, hto, htpg⟩

/-! ## The width law (42_pulse_generator.md section 3) -/

/-- A pulse is in progress, with `n` ticks to go. -/
def Pulsing (n : Nat) (s : State) : Prop := s.out = true ∧ s.cdEn = true ∧ s.cdCnt = n

theorem fire_pulsing {s : State} (h : s.cdEn = false) : Pulsing (pulseTicks s.timebase s.pwCode) (fire s) := by
  rw [fire_idle h]
  exact ⟨rfl, rfl, rfl⟩

theorem tick_pulsing {n : Nat} {s : State} (h : Pulsing (n + 2) s) : Pulsing (n + 1) (tick s) := by
  obtain ⟨ho, he, hn⟩ := h
  rw [tick_counting he hn]
  exact ⟨ho, he, rfl⟩

theorem byteStep_pulsing {b : Byte} {m : Mode} {n : Nat} {s t : State} (h : Pulsing n s)
    (ht : byteStep b m s = .next t) : Pulsing n t := by
  obtain ⟨ho, he, hn⟩ := h
  rcases byteStep_pulse ht with ⟨⟨hto, hte, htn⟩, -⟩ | ⟨hidle, -, -⟩
  · exact ⟨hto.trans ho, hte.trans he, htn.trans hn⟩
  · simp [he] at hidle

/-- With the steps `es` still to come, none of them a reset, `n + 1` ticks of the pulse will be left after them. -/
def PulseOutlasts (n : Nat) (es : List Input) (s : State) : Prop := .reset ∉ es ∧ Pulsing (n + 1 + tickCount es) s

theorem step_keeps_pulseOutlasts (n : Nat) (e : Input) (es rest : List Input) (s : State)
    (h : PulseOutlasts n (e :: es) s) : ∃ t, step (s.feed (e :: rest)) = .next t ∧ PulseOutlasts n es t := by
  obtain ⟨hr, hp⟩ := h
  obtain ⟨he, hes⟩ := List.ne_and_not_mem_of_not_mem_cons hr
  obtain ⟨t, ht⟩ := perform_completes (Ne.symm he) (s.enterStep rest)
  refine ⟨t, ht, hes, ?_⟩
  have hp : Pulsing (n + 1 + tickCount (e :: es)) (s.enterStep rest) := hp
  cases e with
  | byte b m => exact byteStep_pulsing (by simpa [tickCount] using hp) ht
  | tick =>
    cases ht
    have htwo : n + 1 + tickCount (.tick :: es) = n + tickCount es + 2 := by
      simp only [tickCount, List.count_cons_self]
      omega
    convert tick_pulsing (htwo ▸ hp) using 1
    omega
  | reset => exact absurd rfl he

/-- Settles O45: bytes keep the countdown and each tick takes one off it, down to the expiry. -/
theorem pulseLastsExactlyItsTicks : Obligations.PulseLastsExactlyItsTicks := by
  intro es s hidle hr
  have hfire := fire_pulsing hidle
  refine ⟨fun hlt => ?_, fun heq => ?_⟩
  · obtain ⟨n, hn⟩ := Nat.exists_eq_add_of_lt hlt
    have hstart : PulseOutlasts n es (fire s) := ⟨hr, by convert hfire using 1; omega⟩
    obtain ⟨t, ht, -, ho, he, hc⟩ := runOn_of_steps (step_keeps_pulseOutlasts n) es (fire s) hstart
    refine ⟨_, ht, ho, he, ?_⟩
    rw [State.feed_cdCnt, hc, hn]
    simp [tickCount]
    omega
  · have hstart : PulseOutlasts 0 es (fire s) := ⟨hr, by convert hfire using 1; omega⟩
    obtain ⟨t, ht, -, -, he, hc⟩ := runOn_append_of_steps (step_keeps_pulseOutlasts 0) es [.tick] (fire s) hstart
    obtain ⟨-, -, hexpire⟩ := tickCountsDownAndExpires (t.feed [.tick]) [] rfl
    exact ⟨_, by rw [ht, runOn_singleton, hexpire he hc], rfl, rfl, rfl⟩

/-! ## The edges of the line -/

/-- Settles O46: no byte ends a pulse, and a tick does so only where it brings the countdown to zero. -/
theorem onlyTickOrResetLowersLine : Obligations.OnlyTickOrResetLowersLine := by
  intro s t h hs ht
  match hi : s.inputs with
  | [] =>
    rw [step_waiting hi] at h
    cases h
    simp [hs] at ht
  | .byte b m :: rest =>
    rw [← feed_self hi, step_perform] at h
    rcases byteStep_pulse h with ⟨⟨ho, -, -⟩, -⟩ | ⟨-, ho, -⟩
    · simp [ho, hs] at ht
    · simp [ho] at ht
  | .tick :: rest =>
    rw [step_tick hi] at h
    cases h
    rcases tick_cases (s.enterStep rest) with ⟨-, he⟩ | ⟨-, -, he⟩ | ⟨hb, h0, he⟩
    · simp [he, hs] at ht
    · simp [he, hs] at ht
    · exact .inl ⟨rest, rfl, hb, h0, by rw [he]; rfl, by rw [he]; rfl⟩
  | .reset :: rest => exact .inr ⟨rest, rfl⟩

/-- The strobe is high in exactly the steps in which the line rises, where the line is the countdown's enable flag. -/
theorem perform_pgStart_iff {e : Input} {s t : State} (hline : s.out = s.cdEn) (hquiet : s.ports.pgStart = false)
    (h : perform e s = .next t) : t.ports.pgStart = true ↔ s.out = false ∧ t.out = true := by
  cases e with
  | byte b m =>
    rcases byteStep_pulse h with ⟨⟨ho, -, -⟩, hpg⟩ | ⟨hidle, ho, hpg⟩
    · simp [hpg, hquiet, ho]
    · simp [hpg, ho, hline, hidle]
  | tick =>
    cases h
    rcases tick_cases s with ⟨-, he⟩ | ⟨-, -, he⟩ | ⟨-, -, he⟩ <;> simp [he, hquiet]
  | reset =>
    obtain ⟨q, d, k, -, -, rfl⟩ := resetStep_cases h
    simp [hquiet]

/-- Settles O47: every step begins with the strobe low, and under the invariants the line is `cd_en`. -/
theorem pgStartMarksRisingEdges : Obligations.PgStartMarksRisingEdges := by
  intro s t hinv h
  match hi : s.inputs with
  | [] =>
    rw [step_waiting hi] at h
    cases h
    simp [pgStart, syncOut]
  | e :: rest =>
    rw [← feed_self hi, step_perform] at h
    exact perform_pgStart_iff (s := s.enterStep rest) hinv.out_eq rfl h

/-! ## An expiry and a Clock byte -/

/-- A Clock byte that passes the gate at the division boundary, in a `BYTE` step. -/
theorem byteStep_clock_boundary {m : Mode} {s : State} (hg : m = .high ∨ s.running = true)
    (hle : s.div.toNat ≤ s.clkCnt.toNat + 1) :
    byteStep 0xF8#8 m s = .next ((fire (s.setSx (netSx s.sxState 0xF8#8))).setClkCnt 0#5) := by
  rw [byteStep_of_realTime (.inl rfl), decodeDispatch_F8, exec_clock_of_counted (by simpa using hg),
    countClock_of_boundary (by simpa using hle)]

/-- Settles O49: after the expiry the line is idle and fires; before it the line is busy and the request is lost. -/
theorem expiryPrecedesByteInOneCycle : Obligations.ExpiryPrecedesByteInOneCycle := by
  intro s m hb hn hle hg
  constructor
  · have htick : portCycle { rst := false, tick := true, rxValid := false, rxData := 0xF8#8, modeSel := m } s =
        .next (((s.enterStep s.inputs).setCdCnt 0).lowerLine) := by
      rw [← tick_expiring (s := s.enterStep s.inputs) hb hn]
      rfl
    have hboundary := byteStep_clock_boundary (s := ((s.enterStep s.inputs).setCdCnt 0).lowerLine) hg hle
    have hcycle := portCycle_byte false true 0xF8#8 m s
    rw [htick, andThen_next, hboundary, fire_idle rfl] at hcycle
    exact ⟨_, hcycle, rfl, rfl, rfl, rfl, rfl⟩
  · have hbyte : step (s.feed [.byte 0xF8#8 m, .tick]) =
        .next (((s.enterStep [.tick]).setSx (netSx s.sxState 0xF8#8)).setClkCnt 0#5) := by
      rw [step_perform]
      refine (byteStep_clock_boundary (s := s.enterStep [.tick]) hg hle).trans ?_
      rw [fire_busy (by simpa using hb)]
      rfl
    have hrun := runOn_cons (.byte 0xF8#8 m) [.tick] s
    rw [hbyte, andThen_next, runOn_singleton, step_tick rfl, tick_expiring] at hrun
    · exact ⟨_, hrun, rfl, rfl, rfl⟩
    · exact hb
    · exact hn

end Sys2Proof.Machine

/-! The store, `RESET` and the invariants (20_memory.md, 70_reset_and_hazards.md section 1, 10_state.md section 8). -/

namespace Sys2Proof.Machine

/-! ## The store -/

/-- Settles O51: at an offset that exists the write is the named update, whose reads are the laws of the store. -/
theorem storeReadsBackLastWrite : Obligations.StoreReadsBackLastWrite := by
  refine fun a v s => ⟨fun ha hwf => ?_, fun ha => ?_⟩
  · have hex : offsetExists a = true := decide_eq_true ha
    exact ⟨_, if_pos hex, readByte_setNv_self hwf hex, fun b hb => readByte_setNv_other hb v s, rfl⟩
  · have hex : ¬offsetExists a = true := by simpa [offsetExists, Nat.lt_iff_add_one_le] using ha
    exact ⟨if_neg hex, if_neg hex⟩

/-- An instruction without a store offset of its own keeps the configuration and the store. -/
theorem exec_of_no_storeOffset {i : Instr} {s t : State} (hi : storeOffset? i = none) (h : exec i s = .next t) :
    SameConfig s t ∧ t.nv = s.nv := by
  cases i with
  | clock m =>
    obtain ⟨c, o, e, n, g, hc⟩ := exec_clock_eq m s
    rw [hc] at h
    cases h
    exact ⟨⟨rfl, rfl, rfl⟩, rfl⟩
  | sox | start | cont | stop | ign _ | sxHdr | sxDevid | sxSub1 | sxSub2 | sxAbort _ | sxEox | sxHold _
  | dataNop _ _ _ => cases h; exact ⟨⟨rfl, rfl, rfl⟩, rfl⟩
  | setPpqn _ _ | setPw5ms _ | setPw15ms _ => cases hi

/-- What an instruction with a store offset of its own does to configuration and store: nothing, or one of the two setters'
updates. -/
theorem exec_of_storeOffset {i : Instr} {s t : State} (hi : storeOffset? i ≠ none) (h : exec i s = .next t) :
    (SameConfig s t ∧ t.nv = s.nv) ∨
    (1 ≤ t.ppqn.toNat ∧ t.ppqn.toNat ≤ 24 ∧ t.div.toNat = 24 / t.ppqn.toNat ∧ t.pwCode = s.pwCode ∧
      t.nv = Memory.put nvPpqnOffset (t.ppqn.setWidth 8) s.nv) ∨
    (t.ppqn = s.ppqn ∧ t.div = s.div ∧ t.nv = Memory.put nvPwOffset (pwByte t.pwCode) s.nv) := by
  cases i with
  | setPpqn x val =>
    rcases exec_setPpqn_cases x val s with ⟨-, he⟩ | ⟨d, hge, hle, hd, he⟩ <;> rw [he] at h <;> cases h
    · exact .inl ⟨⟨rfl, rfl, rfl⟩, rfl⟩
    · exact .inr (.inl ⟨hge, hle, hd, rfl, rfl⟩)
  | setPw5ms x => rw [exec_setPw5ms] at h; cases h; exact .inr (.inr ⟨rfl, rfl, rfl⟩)
  | setPw15ms x => rw [exec_setPw15ms] at h; cases h; exact .inr (.inr ⟨rfl, rfl, rfl⟩)
  | sox | clock _ | start | cont | stop | ign _ | sxHdr | sxDevid | sxSub1 | sxSub2 | sxAbort _ | sxEox | sxHold _
  | dataNop _ _ _ => exact absurd rfl hi

/-! ## The invariants, part by part -/

/-- I1 to I3 and I7: the configuration in its ranges, mirrored in a store in canonical form. -/
structure ConfigInv (s : State) : Prop where
  ppqn_ge : 1 ≤ s.ppqn.toNat
  ppqn_le : s.ppqn.toNat ≤ 24
  div_eq : s.div.toNat = 24 / s.ppqn.toNat
  mirror_ppqn : readByte 0 s = .ok (s.ppqn.setWidth 8)
  mirror_pw : readByte 1 s = .ok (pwByte s.pwCode)
  store_wf : Memory.wf s.nv = true

/-- I5 and I6: the line and the countdown. -/
structure PulseInv (s : State) : Prop where
  out_eq : s.out = s.cdEn
  counting : s.cdEn = true → 1 ≤ s.cdCnt ∧ s.cdCnt ≤ 3 * (s.timebase.t5Pred + 1)
  resting : s.cdEn = false → s.cdCnt = 0

theorem inv_iff (s : State) : Inv s ↔ ConfigInv s ∧ s.clkCnt.toNat ≤ 23 ∧ PulseInv s :=
  ⟨fun h =>
    ⟨⟨h.ppqn_ge, h.ppqn_le, h.div_eq, h.mirror_ppqn, h.mirror_pw, h.store_wf⟩, h.clkCnt_le,
      ⟨h.out_eq, h.counting, h.resting⟩⟩,
    fun ⟨hc, hn, hp⟩ =>
      ⟨hc.ppqn_ge, hc.ppqn_le, hc.div_eq, hn, hp.out_eq, hp.counting, hp.resting, hc.mirror_ppqn, hc.mirror_pw,
        hc.store_wf⟩⟩

theorem ConfigInv.of_same {s t : State} (h : ConfigInv s) (hcfg : SameConfig s t) (hnv : t.nv = s.nv) : ConfigInv t := by
  obtain ⟨hp, hw, hd⟩ := hcfg
  exact
    { ppqn_ge := hp ▸ h.ppqn_ge
      ppqn_le := hp ▸ h.ppqn_le
      div_eq := by rw [hd, hp, h.div_eq]
      mirror_ppqn := by rw [readByte_of_nv hnv, hp, h.mirror_ppqn]
      mirror_pw := by rw [readByte_of_nv hnv, hw, h.mirror_pw]
      store_wf := hnv ▸ h.store_wf }

theorem PulseInv.of_same {s t : State} (h : PulseInv s) (htb : t.timebase = s.timebase) (hp : SamePulse s t) :
    PulseInv t := by
  obtain ⟨ho, he, hn⟩ := hp
  exact ⟨by rw [ho, he, h.out_eq], by rw [he, hn, htb]; exact h.counting, by rw [he, hn]; exact h.resting⟩

theorem pulseInv_of_idle {s : State} (ho : s.out = false) (he : s.cdEn = false) (hn : s.cdCnt = 0) : PulseInv s :=
  ⟨ho.trans he.symm, fun h => by simp [he] at h, fun _ => hn⟩

theorem StartsPulse.pulseInv {s t : State} (htb : t.timebase = s.timebase) (h : StartsPulse s t) : PulseInv t := by
  obtain ⟨-, ho, he, hn, -⟩ := h
  refine ⟨ho.trans he.symm, fun _ => ?_, fun hf => by simp [he] at hf⟩
  rw [hn, htb]
  exact ⟨pulseTicks_pos _ _, pulseTicks_le _ _⟩

/-- A read of the store with one byte written. -/
theorem readByte_of_put {a b : Nat} {v : Byte} {s t : State} (hwf : Memory.wf s.nv = true)
    (hnv : t.nv = Memory.put a v s.nv) (hb : offsetExists b = true) :
    readByte b t = if b = a then .ok v else readByte b s := by
  split
  · next heq => exact readByte_ok.2 ⟨hb, by rw [hnv, heq]; exact Memory.get_put_self hwf a v⟩
  · next hne => simp [readByte, hnv, Memory.get_put_other hne]

/-! ## Every operation keeps them -/

theorem exec_keeps_configInv {i : Instr} {s t : State} (hinv : ConfigInv s) (h : exec i s = .next t) : ConfigInv t := by
  by_cases hi : storeOffset? i = none
  · obtain ⟨hcfg, hnv⟩ := exec_of_no_storeOffset hi h
    exact hinv.of_same hcfg hnv
  · rcases exec_of_storeOffset hi h with ⟨hcfg, hnv⟩ | ⟨hge, hle, hd, hpw, hnv⟩ | ⟨hp, hd, hnv⟩
    · exact hinv.of_same hcfg hnv
    · have hread {b : Nat} := readByte_of_put (b := b) hinv.store_wf hnv
      exact ⟨hge, hle, hd, hread rfl, by rw [hpw]; exact (hread rfl).trans hinv.mirror_pw,
        hnv ▸ Memory.wf_put hinv.store_wf rfl _⟩
    · have hread {b : Nat} := readByte_of_put (b := b) hinv.store_wf hnv
      exact ⟨hp ▸ hinv.ppqn_ge, hp ▸ hinv.ppqn_le, by rw [hd, hp, hinv.div_eq],
        by rw [hp]; exact (hread rfl).trans hinv.mirror_ppqn, hread rfl, hnv ▸ Memory.wf_put hinv.store_wf rfl _⟩

/-- I4: CLOCK keeps the counter below the divisor, START presets it to one less, and nothing else writes it. -/
theorem exec_keeps_clkCnt_le {i : Instr} {s t : State} (hcfg : ConfigInv s) (hn : s.clkCnt.toNat ≤ 23)
    (h : exec i s = .next t) : t.clkCnt.toNat ≤ 23 := by
  have hge := hcfg.ppqn_ge
  have hpos : 1 ≤ s.div.toNat := by
    rw [hcfg.div_eq]
    exact Nat.div_pos hcfg.ppqn_le hge
  have hle : s.div.toNat ≤ 24 := hcfg.div_eq ▸ Nat.div_le_self 24 _
  cases hf : i.format with
  | S =>
    obtain ⟨-, ⟨hc, -⟩, -⟩ := sysexOpsFrame i s t hf h
    exact hc ▸ hn
  | X =>
    obtain ⟨⟨hc, -⟩, -⟩ := dataOpsFrame i s t hf h
    exact hc ▸ hn
  | D =>
    cases i with
    | clock m =>
      rcases exec_clock_cases m s with ⟨-, -, he⟩ | ⟨-, he⟩ <;> rw [he] at h <;> cases h
      · exact hn
      · rcases countClock_cases s with ⟨-, hcc⟩ | ⟨hlt, hcc⟩ <;> rw [hcc]
        · simp
        · simp [BitVec.toNat_add]
          omega
    | start =>
      cases h
      simp only [State.setClkCnt_clkCnt, startPreset_toNat hpos]
      omega
    | sox | cont | stop | ign _ => cases h; exact hn
    | sxHdr | sxDevid | sxSub1 | sxSub2 | sxAbort _ | sxEox | sxHold _
    | setPpqn _ _ | setPw5ms _ | setPw15ms _ | dataNop _ _ _ => cases hf

theorem exec_keeps_pulseInv {i : Instr} {s t : State} (hinv : PulseInv s) (h : exec i s = .next t) : PulseInv t := by
  obtain ⟨htb, -⟩ := exec_env h
  rcases exec_pulse h with ⟨hp, -⟩ | hp
  · exact hinv.of_same htb hp
  · exact hp.pulseInv htb

theorem exec_keeps_inv {i : Instr} {s t : State} (hinv : Inv s) (h : exec i s = .next t) : Inv t := by
  obtain ⟨hc, hn, hp⟩ := (inv_iff s).1 hinv
  exact (inv_iff t).2 ⟨exec_keeps_configInv hc h, exec_keeps_clkCnt_le hc hn h, exec_keeps_pulseInv hp h⟩

theorem tick_keeps_pulseInv {s : State} (hinv : PulseInv s) : PulseInv (tick s) := by
  obtain ⟨htb, -⟩ := tick_env s
  rcases tick_cases s with ⟨-, h⟩ | ⟨he, h0, h⟩ | ⟨-, -, h⟩ <;> rw [h]
  · exact hinv
  · obtain ⟨hge, hle⟩ := hinv.counting he
    obtain ⟨n, hn⟩ := Nat.exists_eq_add_of_le' hge
    rw [hn, countDown_succ] at h0 ⊢
    exact ⟨hinv.out_eq, fun _ => by simp only [State.setCdCnt_cdCnt, State.setCdCnt_timebase]; omega,
      fun hf => by simp [he] at hf⟩
  · exact pulseInv_of_idle rfl rfl rfl

theorem tick_keeps_inv {s : State} (hinv : Inv s) : Inv (tick s) := by
  obtain ⟨hc, hn, hp⟩ := (inv_iff s).1 hinv
  have hpulse := tick_keeps_pulseInv hp
  obtain ⟨o, e, n, h⟩ := tick_eq s
  rw [h] at hpulse ⊢
  exact (inv_iff _).2 ⟨hc.of_same ⟨rfl, rfl, rfl⟩ rfl, hn, hpulse⟩

/-! ## RESET -/

theorem bootPpqn_setWidth {p : Byte} {q d : BitVec 5} (h : bootPpqn p = some (q, d)) : q.setWidth 8 = p := by
  obtain ⟨-, -, -, hq, -⟩ := bootPpqn_cases h
  apply BitVec.eq_of_toNat_eq
  rw [← hq, BitVec.toNat_setWidth_of_le (by decide)]

/-- Whatever the registers held, `RESET` establishes the invariants over a store in canonical form. -/
theorem resetStep_establishes_inv {s t : State} (hwf : Memory.wf s.nv = true) (h : resetStep s = .next t) : Inv t := by
  obtain ⟨q, d, k, hq, hk, rfl⟩ := resetStep_cases h
  obtain ⟨hge, hle, -, hqp, hd⟩ := bootPpqn_cases hq
  have hconfig : ConfigInv ((booted s).afterReset q d k) :=
    { ppqn_ge := hqp ▸ hge
      ppqn_le := hqp ▸ hle
      div_eq := hqp ▸ hd
      mirror_ppqn := readByte_ok.2 ⟨rfl, (booted_get_ppqn hwf).trans (bootPpqn_setWidth hq).symm⟩
      mirror_pw := readByte_ok.2 ⟨rfl, (booted_get_pw hwf).trans (bootWidth_cases hk)⟩
      store_wf := booted_wf hwf }
  exact (inv_iff _).2 ⟨hconfig, Nat.zero_le 23, pulseInv_of_idle rfl rfl rfl⟩

/-! ## Every step keeps them -/

theorem Inv.of_sameBlock {s u : State} (hinv : Inv s) (h : SameBlock s u) : Inv u := by
  obtain ⟨l, p, rfl⟩ := h.cases
  obtain ⟨hc, hn, hp⟩ := (inv_iff s).1 hinv
  exact (inv_iff _).2 ⟨hc.of_same ⟨rfl, rfl, rfl⟩ rfl, hn, hp.of_same rfl ⟨rfl, rfl, rfl⟩⟩

theorem offer_keeps_inv {i : Option Instr} {s t : State} (hinv : Inv s) (h : offer i s = .next t) : Inv t := by
  cases i with
  | none => cases h; exact hinv
  | some i => exact exec_keeps_inv hinv h

theorem perform_keeps_inv {e : Input} {s t : State} (hinv : Inv s) (h : perform e s = .next t) : Inv t := by
  cases e with
  | byte b m =>
    obtain ⟨u, hu, ht⟩ := andThen_cases h
    exact exec_keeps_inv (offer_keeps_inv hinv hu) ht
  | tick => cases h; exact tick_keeps_inv hinv
  | reset => exact resetStep_establishes_inv hinv.store_wf h

/-- Settles O59: the waiting step keeps the block, and every other step performs its input. -/
theorem everyStepKeepsInvariants : Obligations.EveryStepKeepsInvariants := by
  intro s t hinv h
  match hi : s.inputs with
  | [] =>
    rw [step_waiting hi] at h
    cases h
    exact hinv.of_sameBlock (SameBlock.enterStep s [])
  | e :: rest =>
    rw [← feed_self hi, step_perform] at h
    exact perform_keeps_inv (hinv.of_sameBlock (SameBlock.enterStep s rest)) h

/-- Settles O60: the taken input does not touch the store. -/
theorem resetEstablishesInvariants : Obligations.ResetEstablishesInvariants := by
  intro s t rest hwf hi h
  rw [step_reset hi] at h
  exact resetStep_establishes_inv (s := s.enterStep rest) hwf h

/-- Settles O58: each field at its value. -/
theorem invariantsHoldAtReset : Obligations.InvariantsHoldAtReset := by
  have hconfig : ConfigInv State.reset := ⟨by decide, by decide, by decide, rfl, rfl, reset_store_wf⟩
  exact (inv_iff _).2 ⟨hconfig, by decide, pulseInv_of_idle rfl rfl rfl⟩

/-- Settles O53: the values written in `State.reset`, and the two reads of its store. -/
theorem resetStateHasItsValues : Obligations.ResetStateHasItsValues :=
  ⟨rfl, rfl, rfl, rfl, rfl, rfl, rfl, rfl, rfl, rfl, rfl⟩

/-! ## The canonical form of the store -/

theorem exec_keeps_wf {i : Instr} {s t : State} (hwf : Memory.wf s.nv = true) (h : exec i s = .next t) :
    Memory.wf t.nv = true := by
  by_cases hi : storeOffset? i = none
  · obtain ⟨-, hnv⟩ := exec_of_no_storeOffset hi h
    exact hnv ▸ hwf
  · rcases exec_of_storeOffset hi h with ⟨-, hnv⟩ | ⟨-, -, -, -, hnv⟩ | ⟨-, -, hnv⟩
    · exact hnv ▸ hwf
    · exact hnv ▸ Memory.wf_put hwf rfl _
    · exact hnv ▸ Memory.wf_put hwf rfl _

/-- Settles O52: every write is a `put` at an offset that exists. -/
theorem everyStepKeepsStoreCanonical : Obligations.EveryStepKeepsStoreCanonical := by
  intro s t hwf h
  rcases step_cases h with ⟨-, rfl⟩ | ⟨b, m, rest, u, -, hu, ht⟩ | ⟨rest, -, rfl⟩ | ⟨rest, -, hr⟩
  · exact hwf
  · refine exec_keeps_wf ?_ ht
    cases hd : decodeSysex s.sxState b with
    | none => rw [hd] at hu; cases hu; exact hwf
    | some i => rw [hd] at hu; exact exec_keeps_wf (s := s.enterStep rest) hwf hu
  · obtain ⟨o, e, n, ht⟩ := tick_eq (s.enterStep rest)
    rw [ht]
    exact hwf
  · exact (resetStep_establishes_inv (s := s.enterStep rest) hwf hr).store_wf

end Sys2Proof.Machine

/-! What `RESET` loads from the store image and shows at the store port (70_reset_and_hazards.md section 1), and what one
clock cycle does (00_scope.md section 6). -/

namespace Sys2Proof.Machine

/-! ## The store port during RESET -/

/-- The accesses for one key: the read, and the write of the default over a sentinel. -/
def keyAccesses (a : Nat) (dflt v : Byte) : List NvAccess :=
  [.read a v] ++ if v = 0xFF#8 then [.write a dflt] else []

theorem repaired_nvBus (a : Nat) (dflt : Byte) (s : State) :
    (repaired a dflt s).ports.nvBus = s.ports.nvBus ++ keyAccesses a dflt (Memory.get a s.nv) := by
  unfold repaired keyAccesses nvSentinel
  split <;> simp

theorem booted_nvBus (s : State) :
    (booted s).ports.nvBus = s.ports.nvBus ++ keyAccesses nvPpqnOffset ppqnDefault (Memory.get nvPpqnOffset s.nv) ++
      keyAccesses nvPwOffset pwDefault (Memory.get nvPwOffset s.nv) := by
  have hne : nvPwOffset ≠ nvPpqnOffset := by decide
  rw [booted, repaired_nvBus, repaired_nvBus, repaired_get_other hne]

/-! ## Legal store images -/

theorem effective_of_read {a : Nat} {v : Byte} {s : State} (h : readByte a s = .ok v) (dflt : Byte) :
    effective a dflt s = if v = 0xFF#8 then dflt else v := by
  obtain ⟨-, rfl⟩ := readByte_ok.1 h
  rfl

theorem effective_ppqn_legal_iff {p : Byte} {s : State} (h : readByte nvPpqnOffset s = .ok p) :
    (1 ≤ (effective nvPpqnOffset ppqnDefault s).toNat ∧ (effective nvPpqnOffset ppqnDefault s).toNat ≤ 24) ↔
      p = 0xFF#8 ∨ (1 ≤ p.toNat ∧ p.toNat ≤ 24) := by
  rw [effective_of_read h]
  split
  · next hp => simp [hp, ppqnDefault]
  · next hp => simp [hp]

theorem effective_pw_legal_iff {w : Byte} {s : State} (h : readByte nvPwOffset s = .ok w) :
    (∃ k, effective nvPwOffset pwDefault s = pwByte k) ↔ w = 0xFF#8 ∨ w.toNat = 1 ∨ w.toNat = 2 := by
  rw [effective_of_read h]
  split
  · next hw => simpa [hw] using ⟨PwCode.width5ms, rfl⟩
  · next hw =>
    simp only [hw, false_or]
    constructor
    · rintro ⟨k, rfl⟩
      cases k <;> simp [pwByte]
    · rintro (h1 | h2)
      · exact ⟨.width5ms, BitVec.eq_of_toNat_eq h1⟩
      · exact ⟨.width15ms, BitVec.eq_of_toNat_eq h2⟩

/-- A store image is legal when both bytes that `RESET` works with are in range. -/
theorem nvLegal_iff (s : State) :
    NvLegal s ↔ (1 ≤ (effective nvPpqnOffset ppqnDefault s).toNat ∧ (effective nvPpqnOffset ppqnDefault s).toNat ≤ 24) ∧
      ∃ k, effective nvPwOffset pwDefault s = pwByte k := by
  have h0 : readByte 0 s = .ok (Memory.get 0 s.nv) := rfl
  have h1 : readByte 1 s = .ok (Memory.get 1 s.nv) := rfl
  rw [effective_ppqn_legal_iff h0, effective_pw_legal_iff h1]
  constructor
  · rintro ⟨p, w, hp, hw, hlegal⟩
    cases hp
    cases hw
    exact hlegal
  · exact fun hlegal => ⟨_, _, h0, h1, hlegal⟩

theorem resetStep_of_legal {s : State} (h : NvLegal s) :
    ∃ d k, resetStep s = .next ((booted s).afterReset ((effective nvPpqnOffset ppqnDefault s).setWidth 5) d k) ∧
      d.toNat = 24 / (effective nvPpqnOffset ppqnDefault s).toNat ∧ effective nvPwOffset pwDefault s = pwByte k := by
  obtain ⟨⟨hge, hle⟩, k, hk⟩ := (nvLegal_iff s).1 h
  obtain ⟨d, hd, hdiv⟩ := bootPpqn_of_range hge hle
  exact ⟨d, k, by rw [resetStep_eq, hd, hk, bootWidth_pwByte], hdiv, hk⟩

theorem resetStep_of_illegal {s : State} (h : ¬NvLegal s) : resetStep s = .refused .illegalStoreImage := by
  rw [resetStep_eq]
  split
  · next q d k hq hk =>
    obtain ⟨hge, hle, -⟩ := bootPpqn_cases hq
    exact absurd ((nvLegal_iff s).2 ⟨⟨hge, hle⟩, k, bootWidth_cases hk⟩) h
  · rfl

/-- Settles O55: `RESET` answers only where both bytes it works with are in range. -/
theorem illegalStoreImageRefused : Obligations.IllegalStoreImageRefused := by
  intro s rest hi h
  rw [step_reset hi]
  exact resetStep_of_illegal (s := s.enterStep rest) h

/-- Settles O54: each key's register and store byte are the byte `RESET` works with, the stored one or the default. -/
theorem resetLoadsConfiguration : Obligations.ResetLoadsConfiguration := by
  intro s p w rest hi hwf hlegal hp hw
  set u := s.enterStep rest with hu
  have hulegal : NvLegal u := hlegal
  obtain ⟨⟨-, hle⟩, -⟩ := (nvLegal_iff u).1 hulegal
  obtain ⟨d, k, hstep, hd, hk⟩ := resetStep_of_legal hulegal
  have hread0 := booted_get_ppqn (s := u) hwf
  have hread1 := booted_get_pw (s := u) hwf
  have heff0 := effective_of_read (a := nvPpqnOffset) (s := u) hp ppqnDefault
  have heff1 := effective_of_read (a := nvPwOffset) (s := u) hw pwDefault
  set e := effective nvPpqnOffset ppqnDefault u with he
  have hq : (e.setWidth 5).toNat = e.toNat := by rw [BitVec.toNat_setWidth]; omega
  refine ⟨_, (step_reset hi).trans hstep, fun hff => ?_, fun hne => ?_, fun hff => ?_, fun hne => ?_, ?_, rfl, rfl, rfl,
    rfl, rfl, rfl, ?_, ?_, by simp [booted, hu], by simp [booted, hu]⟩
  · rw [if_pos hff] at heff0
    exact ⟨by rw [heff0]; rfl, readByte_ok.2 ⟨rfl, hread0.trans heff0⟩⟩
  · rw [if_neg hne] at heff0
    exact ⟨hq.trans (by rw [heff0]), readByte_ok.2 ⟨rfl, hread0.trans heff0⟩⟩
  · rw [if_pos hff] at heff1
    refine ⟨?_, readByte_ok.2 ⟨rfl, hread1.trans heff1⟩⟩
    cases k with
    | width5ms => rfl
    | width15ms => rw [heff1] at hk; cases hk
  · rw [if_neg hne] at heff1
    exact ⟨hk.symm.trans heff1, readByte_ok.2 ⟨rfl, hread1.trans heff1⟩⟩
  · exact hd.trans (by rw [← hq]; rfl)
  · exact booted_pgStart u
  · have h0 : Memory.get 0 u.nv = p := (readByte_ok.1 hp).2
    have h1 : Memory.get 1 u.nv = w := (readByte_ok.1 hw).2
    refine (booted_nvBus u).trans ?_
    rw [nvPpqnOffset, nvPwOffset, h0, h1]
    simp [keyAccesses, hu, ppqnDefault, pwDefault]

/-! ## A reboot -/

/-- A key that holds no sentinel is read and not written. -/
theorem repaired_of_written {a : Nat} {v : Byte} {s : State} (hv : v ≠ nvSentinel) (h : Memory.get a s.nv = v)
    (dflt : Byte) : repaired a dflt s = s.noteRead a v := by
  rw [repaired, h, if_neg hv]

/-- A key that holds the sentinel is read, and its default is written. -/
theorem repaired_of_erased {a : Nat} {s : State} (h : Memory.get a s.nv = nvSentinel) (dflt : Byte) :
    repaired a dflt s = (s.noteRead a nvSentinel).setNv a dflt (Memory.put a dflt s.nv) := by
  rw [repaired, h, if_pos rfl]

theorem pwByte_ne_sentinel (k : PwCode) : pwByte k ≠ nvSentinel := by
  cases k <;> decide

/-- Settles O57: the mirrored bytes are no sentinels and are the registers' own values. -/
theorem configurationSurvivesReboot : Obligations.ConfigurationSurvivesReboot := by
  intro s rest hinv hi
  set u := s.enterStep rest
  have hq : (s.ppqn.setWidth 8).toNat = s.ppqn.toNat := BitVec.toNat_setWidth_of_le (by decide)
  have hge := hinv.ppqn_ge
  have hle := hinv.ppqn_le
  have hp : Memory.get 0 s.nv = s.ppqn.setWidth 8 := (readByte_ok.1 hinv.mirror_ppqn).2
  have hw : Memory.get 1 s.nv = pwByte s.pwCode := (readByte_ok.1 hinv.mirror_pw).2
  have hpne : s.ppqn.setWidth 8 ≠ nvSentinel := by
    intro h
    rw [h] at hq
    simp [nvSentinel] at hq
    omega
  have hbooted : booted u = (u.noteRead 0 (s.ppqn.setWidth 8)).noteRead 1 (pwByte s.pwCode) := by
    rw [booted, repaired_of_written (a := nvPpqnOffset) (s := u) hpne hp,
      repaired_of_written (a := nvPwOffset) (s := u.noteRead nvPpqnOffset _) (pwByte_ne_sentinel s.pwCode) hw]
    rfl
  have heff0 : effective nvPpqnOffset ppqnDefault u = s.ppqn.setWidth 8 :=
    (effective_of_read (s := u) hinv.mirror_ppqn _).trans (if_neg hpne)
  have heff1 : effective nvPwOffset pwDefault u = pwByte s.pwCode :=
    (effective_of_read (s := u) hinv.mirror_pw _).trans (if_neg (pwByte_ne_sentinel s.pwCode))
  have hlegal : NvLegal u := (nvLegal_iff u).2 (by rw [heff0, heff1, hq]; exact ⟨⟨hge, hle⟩, _, rfl⟩)
  obtain ⟨d, k, hstep, hd, hk⟩ := resetStep_of_legal hlegal
  rw [heff0, hq] at hd
  rw [heff0, hbooted] at hstep
  have hcode : k = s.pwCode := by
    have := bootWidth_pwByte k
    rw [← hk, heff1, bootWidth_pwByte] at this
    exact (Option.some.inj this).symm
  refine ⟨_, (step_reset hi).trans hstep, ⟨?_, hcode, ?_⟩, fun _ => rfl, rfl⟩
  · change (s.ppqn.setWidth 8).setWidth 5 = s.ppqn
    simp
  · exact BitVec.eq_of_toNat_eq (hd.trans hinv.div_eq.symm)

/-- Settles O56: both keys are erased, so both defaults are written and taken. -/
theorem erasedStoreBootsToResetState : Obligations.ErasedStoreBootsToResetState := by
  intro s hnv hi
  have hread (a : Nat) : Memory.get a (s.enterStep []).nv = nvSentinel := by
    rw [State.enterStep_nv, hnv]
    rfl
  have heff (a : Nat) (dflt : Byte) : effective a dflt (s.enterStep []) = dflt := if_pos (hread a)
  have hread' : Memory.get nvPwOffset (repaired nvPpqnOffset ppqnDefault (s.enterStep [])).nv = nvSentinel :=
    (repaired_get_other (by decide) _ _).trans (hread _)
  have hbooted : booted (s.enterStep []) =
      { s.enterStep [] with
        nv := [(0, 2#8), (1, 1#8)],
        ports := { pgStart := false, nvBus := [.read 0 0xFF#8, .write 0 2#8, .read 1 0xFF#8, .write 1 1#8] } } := by
    rw [booted, repaired_of_erased hread', repaired_of_erased (hread _), State.setNv_nv, State.enterStep_nv, hnv]
    rfl
  rw [step_reset hi, resetStep_eq, heff, heff, hbooted]
  rfl

/-! ## One clock cycle -/

/-- What every step of a cycle keeps holds after the cycle. -/
theorem performAll_keeps {P : State → Prop} {es : List Input} {s t : State}
    (hstep : ∀ e ∈ es, ∀ u v, P u → perform e u = .next v → P v) (hs : P s) (h : performAll es s = .next t) : P t := by
  induction es generalizing s with
  | nil => cases h; exact hs
  | cons e es ih =>
    obtain ⟨he, hes⟩ := List.forall_mem_cons.1 hstep
    obtain ⟨u, hu, ht⟩ := andThen_cases h
    exact ih hes (he s u hs hu) ht

theorem performAll_completes {es : List Input} (h : .reset ∉ es) (s : State) : ∃ t, performAll es s = .next t := by
  induction es generalizing s with
  | nil => exact ⟨s, rfl⟩
  | cons e es ih =>
    obtain ⟨he, hes⟩ := List.ne_and_not_mem_of_not_mem_cons h
    obtain ⟨u, hu⟩ := perform_completes (Ne.symm he) s
    obtain ⟨t, ht⟩ := ih hes u
    exact ⟨t, by rw [performAll_cons, hu, andThen_next, ht]⟩

theorem reset_notMem_cycleSteps {c : PortCycle} (h : c.rst = false) : .reset ∉ cycleSteps c := by
  simp [cycleSteps, h]

theorem portCycle_of_runOn {c : PortCycle} {s u : State} (h : runOn (cycleSteps c) s = .next u) :
    ∃ t, portCycle c s = .next t ∧ SameBlock u t :=
  performAll_of_runOn (SameBlock.enterStep s s.inputs) h

theorem portCycle_keeps_inv {c : PortCycle} {s t : State} (hinv : Inv s) (h : portCycle c s = .next t) : Inv t :=
  performAll_keeps (fun _ _ _ _ hu hv => perform_keeps_inv hu hv) (hinv.of_sameBlock (SameBlock.enterStep s s.inputs)) h

/-- In a cycle without a byte the strobe stays low: only a byte's step can raise it. -/
theorem portCycle_pgStart_of_no_byte {c : PortCycle} {s t : State} (hc : c.rxValid = false)
    (h : portCycle c s = .next t) : t.ports.pgStart = false := by
  refine performAll_keeps (P := fun u => u.ports.pgStart = false) (fun e he u v hu hv => ?_) rfl h
  cases e with
  | byte b m => simp [cycleSteps, hc] at he
  | tick => cases hv; rw [tick_ports, hu]
  | reset =>
    obtain ⟨q, d, k, -, -, rfl⟩ := resetStep_cases hv
    simp [hu]

theorem portCycle_nvBus_of_tick_only {c : PortCycle} {s t : State} (hr : c.rst = false) (hc : c.rxValid = false)
    (h : portCycle c s = .next t) : t.ports.nvBus = [] := by
  refine performAll_keeps (P := fun u => u.ports.nvBus = []) (fun e he u v hu hv => ?_) rfl h
  cases e with
  | byte b m => simp [cycleSteps, hc] at he
  | tick => cases hv; rw [tick_ports, hu]
  | reset => exact absurd he (reset_notMem_cycleSteps hr)

/-- With a byte in the cycle the strobe says whether the byte's step raised the line, without one it stays low. -/
theorem portCycle_pgStart_iff {c : PortCycle} {s t v : State} (hinv : Inv s) (h : portCycle c s = .next t)
    (hv : runOn (cycleSteps { c with rxValid := false }) s = .next v) :
    t.ports.pgStart = true ↔ v.out = false ∧ t.out = true := by
  obtain ⟨u, hu, hblock⟩ := portCycle_of_runOn hv
  have hout : u.out = v.out := by rw [hblock]
  have hquiet := portCycle_pgStart_of_no_byte rfl hu
  obtain ⟨rst, tck, rxValid, b, m⟩ := c
  cases rxValid with
  | false =>
    rw [h] at hu
    cases hu
    simp [hquiet, ← hout]
  | true =>
    rw [portCycle_byte, hu, andThen_next] at h
    rw [← hout]
    exact perform_pgStart_iff (e := .byte b m) (portCycle_keeps_inv hinv hu).out_eq hquiet h

/-- What a `RESET` leaves for the rest of its cycle: the parser in `Idle`, and the accesses for both keys at the port. -/
theorem resetStep_idle_nvBus {s t : State} (h : resetStep s = .next t) :
    t.sxState = .idle ∧
      t.ports.nvBus = s.ports.nvBus ++ keyAccesses nvPpqnOffset ppqnDefault (Memory.get nvPpqnOffset s.nv) ++
        keyAccesses nvPwOffset pwDefault (Memory.get nvPwOffset s.nv) := by
  obtain ⟨q, d, k, -, -, rfl⟩ := resetStep_cases h
  exact ⟨rfl, booted_nvBus s⟩

theorem portCycle_reset_no_byte {c : PortCycle} {s t u : State} (hr : c.rst = true) (hc : c.rxValid = false)
    (h : portCycle c s = .next t) (hu : step (s.feed [.reset]) = .next u) :
    t.sxState = .idle ∧ t.ports.nvBus = u.ports.nvBus := by
  have hsteps : cycleSteps c = .reset :: if c.tick then [.tick] else [] := by simp [cycleSteps, hr, hc]
  rw [portCycle, hsteps] at h
  obtain ⟨v, hv, ht⟩ := andThen_cases h
  obtain ⟨hidle, hbus⟩ := resetStep_idle_nvBus hv
  obtain ⟨-, hubus⟩ := resetStep_idle_nvBus (s := s.enterStep []) hu
  refine performAll_keeps (P := fun w => w.sxState = .idle ∧ w.ports.nvBus = u.ports.nvBus)
    (fun e he w x hw hx => ?_) ⟨hidle, hbus.trans hubus.symm⟩ ht
  obtain ⟨-, rfl⟩ : c.tick = true ∧ e = .tick := by simpa using he
  cases hx
  obtain ⟨o, en, n, htick⟩ := tick_eq w
  rw [htick]
  exact hw

theorem byteStep_of_idle {b : Byte} {m : Mode} {s : State} (hs : s.sxState = .idle) :
    byteStep b m s = exec (decodeDispatch m b) s := by
  simp only [byteStep, decode, hs, decodeSysex_idle, offer_none, andThen_next]

/-- After the `RESET` of a cycle the parser is in `Idle`, so that neither a tick nor the cycle's byte accesses the store. -/
theorem portCycle_nvBus_of_reset {c : PortCycle} {s t u : State} (hr : c.rst = true) (h : portCycle c s = .next t)
    (hu : step (s.feed [.reset]) = .next u) : t.ports.nvBus = u.ports.nvBus := by
  obtain ⟨rst, tck, rxValid, b, m⟩ := c
  cases rxValid with
  | false => exact (portCycle_reset_no_byte hr rfl h hu).2
  | true =>
    rw [portCycle_byte] at h
    obtain ⟨v, hv, ht⟩ := andThen_cases h
    obtain ⟨hidle, hbus⟩ := portCycle_reset_no_byte (c := ⟨rst, tck, false, b, m⟩) hr rfl hv hu
    rw [byteStep_of_idle hidle] at ht
    exact (exec_dispatcher_nvBus (decodeDispatch_format m b) ht).trans hbus

/-- Settles O50, clause by clause from the lemmas on a cycle. -/
theorem portCyclePerformsItsSteps : Obligations.PortCyclePerformsItsSteps := by
  refine fun c s => ⟨fun hr ht hb => ?_, fun hr => performAll_completes (reset_notMem_cycleSteps hr) _, fun u hu => ?_,
    fun t ht => ⟨?_, fun hb => portCycle_pgStart_of_no_byte hb ht, fun hinv v hv => portCycle_pgStart_iff hinv ht hv,
      fun hr hb => portCycle_nvBus_of_tick_only hr hb ht, fun hr u hu => portCycle_nvBus_of_reset hr ht hu⟩⟩
  · obtain ⟨rst, tck, rxValid, b, m⟩ := c
    cases hr
    cases ht
    cases hb
    exact portCycle_idle b m s
  · obtain ⟨t, ht, hblock⟩ := portCycle_of_runOn hu
    refine ⟨t, ht, ?_⟩
    rw [← portCycle_inputs ht]
    exact hblock
  · rw [portOutputs, ht]
    rfl

end Sys2Proof.Machine
